-- ==== Sys2Proof/Word.lean ====
section
/-! DEFINITION. The machine's word (R13), its byte (the console's character, R36) and the two readings of a word. -/

namespace Sys2Proof

/-- A register, a memory cell, the pc, an instruction, an address: an unsigned 16-bit value (R5, R13). -/
abbrev Word := BitVec 16

/-- A console character (R36). The engine itself has no byte access (R51). -/
abbrev Byte := BitVec 8

/-- `signed(v)` of R13: the two's-complement reading of a word. -/
def Word.signed (v : Word) : Int := if v.toNat < 32768 then v.toNat else (v.toNat : Int) - 65536

end Sys2Proof
end

