-- ==== Sys2Proof/Config.lean ====
section
/-! DEFINITION. What the source does not fix and the spec makes a parameter (R6): the opcode map, the narrowing of an
output value to a byte, and the bytes of an endless console input. The default values stand where a repair can mend them: `opcodeMap` in Decode.lean,
`lowByte` in Machine/Devices.lean. The two other parameters of R6, the initial state and the console input, are
a `State` and a field of it; `Config.tapeByte` supplies what plain data cannot hold of the latter. -/

namespace Sys2Proof

/-- The fourteen operations of R2. -/
inductive Operation where
  | add | and | not | lea | ld | ldr | ldi | st | str | sti | br | jmp | jsr | trap
  deriving DecidableEq, Repr

/-- The fourteen operations, each once. -/
def Operation.all : List Operation :=
  [.add, .and, .not, .lea, .ld, .ldr, .ldi, .st, .str, .sti, .br, .jmp, .jsr, .trap]

/-- `OPCODE_MAP` (R6, D1): the 4-bit value of `ir[15:12]` that selects each operation. -/
structure OpcodeMap where
  add  : BitVec 4
  and  : BitVec 4
  not  : BitVec 4
  lea  : BitVec 4
  ld   : BitVec 4
  ldr  : BitVec 4
  ldi  : BitVec 4
  st   : BitVec 4
  str  : BitVec 4
  sti  : BitVec 4
  br   : BitVec 4
  jmp  : BitVec 4
  jsr  : BitVec 4
  trap : BitVec 4
  deriving DecidableEq, Repr

/-- The opcode number of an operation. -/
def OpcodeMap.code (m : OpcodeMap) : Operation → BitVec 4
  | .add => m.add
  | .and => m.and
  | .not => m.not
  | .lea => m.lea
  | .ld => m.ld
  | .ldr => m.ldr
  | .ldi => m.ldi
  | .st => m.st
  | .str => m.str
  | .sti => m.sti
  | .br => m.br
  | .jmp => m.jmp
  | .jsr => m.jsr
  | .trap => m.trap

/-- `CHAR_OF` (R6, D7): the byte the console device receives for a drained 16-bit value. -/
abbrev CharOf := Word → Byte

/-- The bytes of an endless console input (R6, R36, D8): for each tape number, the byte at every position. It has no body,
so a claim about an endless input holds whatever its bytes are (a free value; safe, log 9). A number names a
tape, so that two endless inputs can differ. -/
opaque Config.tapeByte (tape position : Nat) : Byte

end Sys2Proof
end

