-- ==== Sys2Proof/Syntax.lean ====
section
/-! DEFINITION. The instruction set as syntax: one constructor for each of the 19 rows of spec/opcode_table.json, each
carrying only the fields its rule names (R81, R82, R87). The bits the hardware ignores (R88) are no operand. -/

namespace Sys2Proof

/-- The eight general registers (R21). None is hard-wired. -/
inductive Reg where
  | r0 | r1 | r2 | r3 | r4 | r5 | r6 | r7
  deriving DecidableEq, Repr

/-- The eight registers, in the order of their numbers. -/
def Reg.all : List Reg := [.r0, .r1, .r2, .r3, .r4, .r5, .r6, .r7]

/-- Instructions. Immediates and offsets are kept as the raw fields of the word; their extension is the machine's
(Machine/Operands.lean, R84). -/
inductive Instr where
  /-- ADD, register form (R120). -/
  | addReg (dr sr1 sr2 : Reg)
  /-- ADD, immediate form (R120). -/
  | addImm (dr sr1 : Reg) (imm5 : BitVec 5)
  /-- AND, register form (R121). -/
  | andReg (dr sr1 sr2 : Reg)
  /-- AND, immediate form (R121). -/
  | andImm (dr sr1 : Reg) (imm5 : BitVec 5)
  /-- NOT (R122). -/
  | not (dr sr1 : Reg)
  /-- LEA (R130). -/
  | lea (dr : Reg) (offset9 : BitVec 9)
  /-- LD (R131). -/
  | ld (dr : Reg) (offset9 : BitVec 9)
  /-- LDR (R132). -/
  | ldr (dr sr1 : Reg) (offset6 : BitVec 6)
  /-- LDI (R133). -/
  | ldi (dr : Reg) (offset9 : BitVec 9)
  /-- ST (R140). -/
  | st (sr : Reg) (offset9 : BitVec 9)
  /-- STR (R141). -/
  | str (sr sr1 : Reg) (offset6 : BitVec 6)
  /-- STI (R142). -/
  | sti (sr : Reg) (offset9 : BitVec 9)
  /-- BR (R150): the three condition bits and the offset. -/
  | br (n z p : Bool) (offset9 : BitVec 9)
  /-- JMP (R151). -/
  | jmp (sr1 : Reg)
  /-- JSR with bit 11 set (R152). -/
  | jsr (offset11 : BitVec 11)
  /-- JSR with bit 11 clear (R152). -/
  | jsrr (sr1 : Reg)
  /-- TRAP (R153). -/
  | trap (trapvect8 : BitVec 8)
  /-- The lower of the two unused opcode patterns, 1000 with the default map (R160). -/
  | unused8
  /-- The higher of the two unused opcode patterns, 1101 with the default map (R160). -/
  | unused13
  deriving DecidableEq, Repr

end Sys2Proof
end

