-- ==== Sys2Proof/WellFormed.lean ====
section
/-! DEFINITION. What is well formed. An instruction always is: its registers and fields have the widths of R81 in their types,
and no word of the machine is illegal (R87, R89). An opcode map is when it is injective (R6). -/

namespace Sys2Proof

/-- Every instruction is well formed (R87): there is no operand a type does not already bound. -/
def Instr.wf : Instr → Bool
  | .addReg _ _ _ | .addImm _ _ _ | .andReg _ _ _ | .andImm _ _ _ | .not _ _ => true
  | .lea _ _ | .ld _ _ | .ldr _ _ _ | .ldi _ _ => true
  | .st _ _ | .str _ _ _ | .sti _ _ => true
  | .br _ _ _ _ | .jmp _ | .jsr _ | .jsrr _ | .trap _ => true
  | .unused8 | .unused13 => true

/-- `OPCODE_MAP` is an injective map from the fourteen mnemonics to 4-bit values (R6). -/
abbrev OpcodeMap.wf (m : OpcodeMap) : Prop := (Operation.all.map m.code).Nodup

end Sys2Proof
end

