-- ==== Sys2Proof/Decode.lean ====
section
/-! DEFINITION. The decoder, total on every word and refusing none (R87: "No word is illegal"), over any opcode map, the
default map (R86), and the encoder after it. The opcode table's rows stand beside them as masks and patterns. -/

namespace Sys2Proof

/-! The default opcode map. -/

/-- The default of `OPCODE_MAP` (R86). PRESUMED: the LC-3 assignment, which the spec itself takes from general knowledge (D1);
unsafe, log 1. -/
def opcodeMap : OpcodeMap where
  br := 0
  add := 1
  ld := 2
  st := 3
  jsr := 4
  and := 5
  ldr := 6
  str := 7
  not := 9
  ldi := 10
  sti := 11
  jmp := 12
  lea := 14
  trap := 15

/-- `OPCODE_MAP^-1` (R110): the operation an opcode value selects, if any. -/
def OpcodeMap.operationOf (m : OpcodeMap) (v : BitVec 4) : Option Operation :=
  Operation.all.find? (fun op => m.code op == v)

/-- The opcode values that name none of the fourteen operations, in rising order (R86, R160). -/
def OpcodeMap.unusedPatterns (m : OpcodeMap) : List (BitVec 4) :=
  ((List.range 16).map (BitVec.ofNat 4)).filter (fun v => (m.operationOf v).isNone)

/-- The lowest unused opcode value: 1000 with the default map. -/
def OpcodeMap.unusedLow (m : OpcodeMap) : BitVec 4 := m.unusedPatterns.head?.getD 0

/-- The highest unused opcode value: 1101 with the default map. -/
def OpcodeMap.unusedHigh (m : OpcodeMap) : BitVec 4 := m.unusedPatterns.getLast?.getD 0

/-! The fields of a word (R81). -/

/-- The register a 3-bit index names (R21). -/
def Reg.ofIndex (i : BitVec 3) : Reg :=
  match i.toNat with
  | 0 => .r0
  | 1 => .r1
  | 2 => .r2
  | 3 => .r3
  | 4 => .r4
  | 5 => .r5
  | 6 => .r6
  | _ => .r7

/-- The 3-bit index of a register. -/
def Reg.index : Reg → BitVec 3
  | .r0 => 0
  | .r1 => 1
  | .r2 => 2
  | .r3 => 3
  | .r4 => 4
  | .r5 => 5
  | .r6 => 6
  | .r7 => 7

/-- `opcode`, bits [15:12]. -/
def opcodeField (w : Word) : BitVec 4 := w.extractLsb' 12 4
/-- `DR` of an operation that writes a register and `SR` of a store, bits [11:9] (C1). -/
def drField (w : Word) : Reg := Reg.ofIndex (w.extractLsb' 9 3)
/-- `SR1`, bits [8:6]: first source or base register. -/
def sr1Field (w : Word) : Reg := Reg.ofIndex (w.extractLsb' 6 3)
/-- `SR2`, bits [2:0]. -/
def sr2Field (w : Word) : Reg := Reg.ofIndex (w.extractLsb' 0 3)
/-- `immflag`, bit [5] (R85). -/
def immFlag (w : Word) : Bool := w.getLsbD 5
/-- `imm5`, bits [4:0] (R83). -/
def imm5Field (w : Word) : BitVec 5 := w.extractLsb' 0 5
/-- `offset6`, bits [5:0] (R83). -/
def offset6Field (w : Word) : BitVec 6 := w.extractLsb' 0 6
/-- `offset9`, bits [8:0] (R83). -/
def offset9Field (w : Word) : BitVec 9 := w.extractLsb' 0 9
/-- `offset11`, bits [10:0] (R83). -/
def offset11Field (w : Word) : BitVec 11 := w.extractLsb' 0 11
/-- `n`, bit [11]. -/
def nFlag (w : Word) : Bool := w.getLsbD 11
/-- `z`, bit [10]. -/
def zFlag (w : Word) : Bool := w.getLsbD 10
/-- `p`, bit [9]. -/
def pFlag (w : Word) : Bool := w.getLsbD 9
/-- `jsrflag`, bit [11] (R85). -/
def jsrFlag (w : Word) : Bool := w.getLsbD 11
/-- `trapvect8`, bits [7:0]. -/
def trapField (w : Word) : BitVec 8 := w.extractLsb' 0 8

/-! The decoder. -/

/-- Decoding over any opcode map (R87, R112): the opcode alone selects the operation, then bit 5 for ADD and AND and bit 11
for JSR; every other value is one of the two unused patterns (R160). -/
def decodeWith (m : OpcodeMap) (w : Word) : Instr :=
  match m.operationOf (opcodeField w) with
  | some .add =>
    if immFlag w then .addImm (drField w) (sr1Field w) (imm5Field w)
    else .addReg (drField w) (sr1Field w) (sr2Field w)
  | some .and =>
    if immFlag w then .andImm (drField w) (sr1Field w) (imm5Field w)
    else .andReg (drField w) (sr1Field w) (sr2Field w)
  | some .not => .not (drField w) (sr1Field w)
  | some .lea => .lea (drField w) (offset9Field w)
  | some .ld => .ld (drField w) (offset9Field w)
  | some .ldr => .ldr (drField w) (sr1Field w) (offset6Field w)
  | some .ldi => .ldi (drField w) (offset9Field w)
  | some .st => .st (drField w) (offset9Field w)
  | some .str => .str (drField w) (sr1Field w) (offset6Field w)
  | some .sti => .sti (drField w) (offset9Field w)
  | some .br => .br (nFlag w) (zFlag w) (pFlag w) (offset9Field w)
  | some .jmp => .jmp (sr1Field w)
  | some .jsr => if jsrFlag w then .jsr (offset11Field w) else .jsrr (sr1Field w)
  | some .trap => .trap (trapField w)
  | none => if opcodeField w = m.unusedLow then .unused8 else .unused13

/-- The machine's decoder: the default opcode map. -/
def decode (w : Word) : Instr := decodeWith opcodeMap w

/-- The instruction of a table word of `nbits` bits. Every instruction is one 16-bit cell (R80), so the word must fit its
bits and a cell; a shorter row's missing bits are zero. -/
def decodeTableWord (nbits w : Nat) : Option Instr :=
  if nbits ≤ 16 ∧ w < 2 ^ nbits then some (decode (BitVec.ofNat 16 w)) else none

/-! The encoder. -/

/-- A field put at its place: its lowest bit is bit `lo` of the word (R12). -/
def place {n : Nat} (lo : Nat) (f : BitVec n) : Word := f.setWidth 16 <<< lo

/-- A single bit put at its place. -/
def placeBit (at_ : Nat) (b : Bool) : Word := place at_ (BitVec.ofBool b)

/-- The word of an instruction over any opcode map, each field at the place R82 gives it. The ignored bits (R88) get the
LC-3 assembler's values, ones for NOT and zeros elsewhere (G4). PRESUMED; safe, log 14: no rule reads them. -/
def encodeWith (m : OpcodeMap) : Instr → Word
  | .addReg dr sr1 sr2 => place 12 m.add ||| place 9 dr.index ||| place 6 sr1.index ||| place 0 sr2.index
  | .addImm dr sr1 imm5 =>
    place 12 m.add ||| place 9 dr.index ||| place 6 sr1.index ||| placeBit 5 true ||| place 0 imm5
  | .andReg dr sr1 sr2 => place 12 m.and ||| place 9 dr.index ||| place 6 sr1.index ||| place 0 sr2.index
  | .andImm dr sr1 imm5 =>
    place 12 m.and ||| place 9 dr.index ||| place 6 sr1.index ||| placeBit 5 true ||| place 0 imm5
  | .not dr sr1 => place 12 m.not ||| place 9 dr.index ||| place 6 sr1.index ||| place 0 0b111111#6
  | .lea dr offset9 => place 12 m.lea ||| place 9 dr.index ||| place 0 offset9
  | .ld dr offset9 => place 12 m.ld ||| place 9 dr.index ||| place 0 offset9
  | .ldr dr sr1 offset6 => place 12 m.ldr ||| place 9 dr.index ||| place 6 sr1.index ||| place 0 offset6
  | .ldi dr offset9 => place 12 m.ldi ||| place 9 dr.index ||| place 0 offset9
  | .st sr offset9 => place 12 m.st ||| place 9 sr.index ||| place 0 offset9
  | .str sr sr1 offset6 => place 12 m.str ||| place 9 sr.index ||| place 6 sr1.index ||| place 0 offset6
  | .sti sr offset9 => place 12 m.sti ||| place 9 sr.index ||| place 0 offset9
  | .br n z p offset9 =>
    place 12 m.br ||| placeBit 11 n ||| placeBit 10 z ||| placeBit 9 p ||| place 0 offset9
  | .jmp sr1 => place 12 m.jmp ||| place 6 sr1.index
  | .jsr offset11 => place 12 m.jsr ||| placeBit 11 true ||| place 0 offset11
  | .jsrr sr1 => place 12 m.jsr ||| place 6 sr1.index
  | .trap trapvect8 => place 12 m.trap ||| place 0 trapvect8
  | .unused8 => place 12 m.unusedLow
  | .unused13 => place 12 m.unusedHigh

/-- The encoder of the default opcode map. -/
def encode (i : Instr) : Word := encodeWith opcodeMap i

/-! The opcode table (spec/opcode_table.json). -/

/-- One row: a word belongs to it when its bits under `mask` are `pattern`; `ignored` are the bits no rule names (R88). -/
structure Row where
  mnemonic : String
  pattern  : Word
  mask     : Word
  ignored  : Word
  deriving DecidableEq, Repr

/-- The row of an instruction, from the opcode table. -/
def Instr.row : Instr → Row
  | .addReg _ _ _ => ⟨"ADD", 0x1000, 0xF020, 0x0018⟩
  | .addImm _ _ _ => ⟨"ADD", 0x1020, 0xF020, 0x0000⟩
  | .andReg _ _ _ => ⟨"AND", 0x5000, 0xF020, 0x0018⟩
  | .andImm _ _ _ => ⟨"AND", 0x5020, 0xF020, 0x0000⟩
  | .not _ _ => ⟨"NOT", 0x9000, 0xF000, 0x003F⟩
  | .lea _ _ => ⟨"LEA", 0xE000, 0xF000, 0x0000⟩
  | .ld _ _ => ⟨"LD", 0x2000, 0xF000, 0x0000⟩
  | .ldr _ _ _ => ⟨"LDR", 0x6000, 0xF000, 0x0000⟩
  | .ldi _ _ => ⟨"LDI", 0xA000, 0xF000, 0x0000⟩
  | .st _ _ => ⟨"ST", 0x3000, 0xF000, 0x0000⟩
  | .str _ _ _ => ⟨"STR", 0x7000, 0xF000, 0x0000⟩
  | .sti _ _ => ⟨"STI", 0xB000, 0xF000, 0x0000⟩
  | .br _ _ _ _ => ⟨"BR", 0x0000, 0xF000, 0x0000⟩
  | .jmp _ => ⟨"JMP", 0xC000, 0xF000, 0x0E3F⟩
  | .jsr _ => ⟨"JSR", 0x4800, 0xF800, 0x0000⟩
  | .jsrr _ => ⟨"JSRR", 0x4000, 0xF800, 0x063F⟩
  | .trap _ => ⟨"TRAP", 0xF000, 0xF000, 0x0F00⟩
  | .unused8 => ⟨"UNUSED8", 0x8000, 0xF000, 0x0FFF⟩
  | .unused13 => ⟨"UNUSED13", 0xD000, 0xF000, 0x0FFF⟩

/-- The row's test on a word. -/
abbrev Row.holds (r : Row) (w : Word) : Prop := w &&& r.mask = r.pattern

/-- Two words differ at most in bits this row ignores (R88). -/
abbrev Row.sameButIgnored (r : Row) (v w : Word) : Prop := (v ^^^ w) &&& ~~~r.ignored = 0

end Sys2Proof
end

