-- ==== Sys2Proof/Machine/State.lean ====
section
/-! DEFINITION. The machine's whole state: the six components of R20, which the spec calls closed, and the console
environment of R36 and R37 that the spec says a model needs. Also the reasons a step can stop. -/

namespace Sys2Proof.Machine

/-- The condition code (R26): exactly one of three values. -/
inductive CC where
  | negative | zero | positive
  deriving DecidableEq, Repr

/-- The general registers (R21): eight words, none hard-wired, none banked. -/
structure Regs where
  r0 : Word
  r1 : Word
  r2 : Word
  r3 : Word
  r4 : Word
  r5 : Word
  r6 : Word
  r7 : Word
  deriving DecidableEq, Repr

/-- Memory (R31), sparse: (address, cell) pairs. The spec's addressable unit is the 16-bit cell and it has no bytes (R51,
R52), so a pair holds a cell (DESIGN CHOICE; safe, log 8). Its canonical form is `Memory.wf` (Machine/Ops.lean). -/
abbrev Memory := List (Nat × Word)

/-- `INPUT` (R6, R36): a finite or an infinite sequence of bytes. Both forms are plain data. What byte stands at a position
is `Input.byteAt` (Machine/Devices.lean). -/
inductive Input where
  /-- These bytes and no more. -/
  | finite (bytes : List Byte)
  /-- An infinite sequence: these bytes first, then those of the numbered tape (`Config.tapeByte`), whose bytes are free
  (log 9). -/
  | endless (first : List Byte) (tape : Nat)
  deriving DecidableEq, Repr

/-- The state. `x`, `pc`, `ir`, `cc`, `halted` and `mem` are the architectural state (R20); `input`, `inpos` and `out` are
the console environment (R36, R37), which no instruction can read except through a keyboard LDI. -/
structure State where
  /-- `x[0]`..`x[7]` (R21). -/
  x      : Regs
  /-- `pc` (R23): at a step boundary the address of the next instruction to fetch. -/
  pc     : Word
  /-- `ir` (R25): the most recently fetched instruction. -/
  ir     : Word
  /-- `cc` (R26). -/
  cc     : CC
  /-- `halted` (R30): a signal to the driver; nothing in the engine reads it. -/
  halted : Bool
  /-- `M` (R31), the five device cells of R32 and the trap vector table of R60 among it. -/
  mem    : Memory
  /-- `INPUT` (R36): the console's input bytes, the consumed ones included. -/
  input  : Input
  /-- `inpos` (R36): how many of them have been consumed. -/
  inpos  : Nat
  /-- `OUT` (R37): the drained 16-bit values, oldest first. -/
  out    : List Word
  deriving DecidableEq, Repr

/-- Why a step has no successor. -/
inductive Fault where
  /-- Raised by LDI alone, when its effective address is KBDR's and the console has no further input: the step waits for
  a byte and never completes (R181: "A model gives that state no successor"). It is a stuck state, not a fault of the
  hardware, which raises none (R170). Safe: the model stops where the hardware would wait (log 10). -/
  | awaitingInput
  deriving DecidableEq, Repr

/-- Why an instruction has no meaning. -/
inductive Refusal where
  /-- Raised by `exec` for an instruction that has no meaning yet, by the name the opcode table gives it; no arm
  raises it now. Safe. -/
  | notModelled (mnemonic : String)
  deriving DecidableEq, Repr

/-- What an instruction or a step answers. -/
abbrev Result := Host.Outcome State Fault Refusal

/-- The state the model starts from. The source defines no reset (R38, R200): `halted`, `inpos` and `out` are as R38 states
them; every other value is a DESIGN CHOICE, the start state of the spec's example programs with nothing loaded
(unsafe, logs 2 to 5, 7 and 9). Claims are made of every state, not of this one. -/
def State.reset : State where
  x := ⟨0, 0, 0, 0, 0, 0, 0, 0⟩
  pc := 0x3000
  ir := 0
  cc := .zero
  halted := false
  mem := []
  input := .finite []
  inpos := 0
  out := []

end Sys2Proof.Machine
end

