-- ==== Sys2Proof/Machine/Ops.lean ====
section
/-! DEFINITION. The named operations over registers and memory: register access, the two memory primitives of R50, the fetch
(R111), the link (R152, R153), the trap entry (R172) and the return from it (R173). The machine raises no exception
(R170); TRAP is its only vectored transfer, and its entry is written once, here. -/

namespace Sys2Proof.Machine

/-! Registers. -/

/-- Reading a register of the file. -/
def Regs.get (x : Regs) : Reg → Word
  | .r0 => x.r0
  | .r1 => x.r1
  | .r2 => x.r2
  | .r3 => x.r3
  | .r4 => x.r4
  | .r5 => x.r5
  | .r6 => x.r6
  | .r7 => x.r7

/-- Writing a register of the file. -/
def Regs.set (x : Regs) (r : Reg) (v : Word) : Regs :=
  match r with
  | .r0 => { x with r0 := v }
  | .r1 => { x with r1 := v }
  | .r2 => { x with r2 := v }
  | .r3 => { x with r3 := v }
  | .r4 => { x with r4 := v }
  | .r5 => { x with r5 := v }
  | .r6 => { x with r6 := v }
  | .r7 => { x with r7 := v }

/-- `x[i]` (R15). -/
def State.readReg (s : State) (r : Reg) : Word := s.x.get r

/-- `x[i] <- v` (R15). -/
def State.writeReg (s : State) (r : Reg) (v : Word) : State := { s with x := s.x.set r v }

/-- `pc <- target` (R15). Every word is a legal target (R23, R53). -/
def State.setPc (s : State) (target : Word) : State := { s with pc := target }

/-! Memory. -/

/-- What a cell that memory does not list reads as. DESIGN CHOICE (the spec states no initial memory, R38); unsafe for
claims about `State.reset`, log 7. A claim about every state does not rest on it: every contents of the 65536 cells is
some list. -/
def Memory.unlisted : Word := 0

/-- The cell at an address. -/
def Memory.read : Memory → Nat → Word
  | [], _ => Memory.unlisted
  | (b, w) :: m, a => if b = a then w else Memory.read m a

/-- Memory without an entry at an address. -/
def Memory.erase (m : Memory) (a : Nat) : Memory := m.filter (fun c => c.1 != a)

/-- An entry put in before the first larger address. -/
def Memory.insert : Memory → Nat → Word → Memory
  | [], a, v => [(a, v)]
  | (b, w) :: m, a, v => if a < b then (a, v) :: (b, w) :: m else (b, w) :: Memory.insert m a v

/-- Storing a cell, keeping the canonical form: the value an unlisted cell reads as is not listed. -/
def Memory.write (m : Memory) (a : Nat) (v : Word) : Memory :=
  if v = Memory.unlisted then m.erase a else (m.erase a).insert a v

/-- The canonical form: addresses strictly rising and below 65536 (R31), and no entry equal to what an unlisted address
reads as. -/
abbrev Memory.wf (m : Memory) : Prop :=
  m.Pairwise (fun c d => c.1 < d.1) ∧ ∀ c ∈ m, c.1 < 65536 ∧ c.2 ≠ Memory.unlisted

/-- `MemRead(a, 1)` (R50): total, and without any side effect (R56). -/
def State.memRead (s : State) (a : Word) : Word := s.mem.read a.toNat

/-- `MemWrite(a, 1, v)` (R50): total, and no other cell changes. -/
def State.memWrite (s : State) (a v : Word) : State := { s with mem := s.mem.write a.toNat v }

/-! Fetch, link, trap. -/

/-- The fetch (R110 step 1, R111): `ir <- M[pc]`, then `pc <- pc + 1` modulo 65536. -/
def State.fetch (s : State) : State := { s with ir := s.memRead s.pc, pc := s.pc + 1 }

/-- `x[7] <- pc`: the return address, the instruction after this one (R152, R153). -/
def State.link (s : State) : State := s.writeReg .r7 s.pc

/-- Entering a trap (R172): the incremented pc goes into `x[7]` and control to the address held in the vector's cell. No mode,
mask or flag changes, and nothing else is saved. -/
def State.trapEntry (s : State) (vectorCell : Word) : State :=
  s.link.setPc (s.link.memRead vectorCell)

/-- Going to the address a register holds; with `x[7]` the return from a trap or a subroutine, which restores only the pc
(R151, R173). -/
def State.jumpTo (s : State) (r : Reg) : State := s.setPc (s.readReg r)

/-- `halted <- true` (R30). -/
def State.halt (s : State) : State := { s with halted := true }

end Sys2Proof.Machine
end

