-- ==== Sys2Proof/Machine/Flags.lean ====
section
/-! DEFINITION. The condition code: the evaluator `SetCC` (R27), its bit pattern and display tag (R29), and BR's test of it
(R150). There is no carry, overflow or borrow flag (R120). -/

namespace Sys2Proof.Machine

/-- The condition code of a value (R27). -/
def ccOf (v : Word) : CC :=
  if v = 0 then .zero else if v.getLsbD 15 then .negative else .positive

/-- `SetCC(v)` (R27): nothing but `cc` changes. -/
def State.setCC (s : State) (v : Word) : State := { s with cc := ccOf v }

/-- `x[DR] <- v; SetCC(v)`: how every one of the seven CC-setting instructions ends (R27, R28). -/
def State.writeResult (s : State) (dr : Reg) (v : Word) : State := (s.writeReg dr v).setCC v

/-- `ccbits` (R29): one-hot, bit 2 Negative, bit 1 Zero, bit 0 Positive. The pattern is the spec's own (D11). -/
def CC.bits : CC → BitVec 3
  | .negative => 0b100
  | .zero => 0b010
  | .positive => 0b001

/-- The one-character tag of the observation interface (R11, R29). -/
def CC.tag : CC → Char
  | .negative => 'N'
  | .zero => 'Z'
  | .positive => 'P'

/-- BR's condition (R150): the condition bits match the condition code, OR-combined. -/
def CC.taken (cc : CC) (n z p : Bool) : Bool :=
  (n && cc == .negative) || (z && cc == .zero) || (p && cc == .positive)

end Sys2Proof.Machine
end

