-- ==== Sys2Proof/Machine/Operands.lean ====
section
/-! DEFINITION. Operand assembly: the extension primitives (R14), the extended immediates and offsets (R84), and the effective
addresses (R54). In every one of them `pc` is the incremented pc (R23). -/

namespace Sys2Proof.Machine

/-- `sext_N(f)` (R14): bits 15..N equal bit N-1 of the field. -/
def sext {n : Nat} (f : BitVec n) : Word := f.signExtend 16

/-- `zext_N(f)` (R14): the high bits are zero. -/
def zext {n : Nat} (f : BitVec n) : Word := f.setWidth 16

/-- The PC-relative address of LEA, LD, ST and of the first level of LDI and STI (R54). -/
def State.pcRel9 (s : State) (offset9 : BitVec 9) : Word := s.pc + sext offset9

/-- The PC-relative target of JSR with bit 11 set (R152). -/
def State.pcRel11 (s : State) (offset11 : BitVec 11) : Word := s.pc + sext offset11

/-- The base+offset address of LDR and STR (R54). -/
def State.baseOffset (s : State) (base : Reg) (offset6 : BitVec 6) : Word :=
  s.readReg base + sext offset6

/-- The indirect (effective) address of LDI and STI: the first level is always a plain read (R54, R133, R142). -/
def State.indirect (s : State) (offset9 : BitVec 9) : Word := s.memRead (s.pcRel9 offset9)

/-- The cell of a trap vector, 0x0000..0x00FF: zero-extended, not sign-extended (R84, R153). -/
def vectorCell (trapvect8 : BitVec 8) : Word := zext trapvect8

end Sys2Proof.Machine
end

