-- ==== Sys2Proof/Machine/Control.lean ====
section
/-! DEFINITION. The control instructions BR, JMP, JSR in its two forms, TRAP (44_control.md). None of them writes `cc`. -/

namespace Sys2Proof.Machine

/-- BR (R150). -/
def execBr (n z p : Bool) (offset9 : BitVec 9) (s : State) : Result :=
  if s.cc.taken n z p then .next (s.setPc (s.pcRel9 offset9)) else .next s

/-- JMP (R151); `JMP R7` is the return from JSR and TRAP. -/
def execJmp (sr1 : Reg) (s : State) : Result := .next (s.jumpTo sr1)

/-- JSR, PC-relative form (R152): the pc added to is the one saved. -/
def execJsr (offset11 : BitVec 11) (s : State) : Result :=
  .next (s.link.setPc (s.pcRel11 offset11))

/-- JSR, register form (R152): the base is read AFTER `x[7]` was written, so with base register 7 the call falls through
(D4, log 13). -/
def execJsrr (sr1 : Reg) (s : State) : Result := .next (s.link.jumpTo sr1)

/-- TRAP (R153). -/
def execTrap (trapvect8 : BitVec 8) (s : State) : Result := .next (s.trapEntry (vectorCell trapvect8))

end Sys2Proof.Machine
end

