-- ==== Sys2Proof/Machine/Devices.lean ====
section
/-! DEFINITION. The console I/O controller and the machine control register (60_exceptions.md, Part B): the five device
addresses (R5, R32), the console's two operations (R181, R182) and the reconciliation that ends every step (R184).
The numeric values stand here, each once, so that a correction touches one place (U11, log 18). -/

namespace Sys2Proof.Machine

/-- KBSR, keyboard status (R32). -/
def kbsrAddr : Word := 0xFE00
/-- KBDR, keyboard data (R32). -/
def kbdrAddr : Word := 0xFE02
/-- DSR, display status (R32). -/
def dsrAddr : Word := 0xFE04
/-- DDR, display data (R32). -/
def ddrAddr : Word := 0xFE06
/-- MCR, machine control (R32). -/
def mcrAddr : Word := 0xFFFE
/-- The "ready" value forced into KBSR and DSR (R5). -/
def readyValue : Word := 0x8000

/-- `INPUT[p]` (R36): the byte at a position; nothing past the end of a finite input (R181). -/
def Input.byteAt : Input → Nat → Option Byte
  | .finite bytes, p => bytes[p]?
  | .endless first tape, p => some (first[p]?.getD (Config.tapeByte tape p))

/-- The input has at least `p` bytes: `p` is a position in it or its end. -/
def Input.reaches : Input → Nat → Bool
  | .finite bytes, p => decide (p ≤ bytes.length)
  | .endless _ _, _ => true

/-- More bytes at the end of the input. An endless input has no end, so nothing put there is ever read. -/
def Input.append : Input → List Byte → Input
  | .finite bytes, more => .finite (bytes ++ more)
  | .endless first tape, _ => .endless first tape

/-- `ConsoleRead()` (R181): the next input byte, and the state with the position advanced; nothing when the input is
exhausted. -/
def State.consoleRead (s : State) : Option (Byte × State) :=
  match s.input.byteAt s.inpos with
  | some c => some (c, { s with inpos := s.inpos + 1 })
  | none => none

/-- `ConsoleWrite(v)` (R182): appends the 16-bit value to `OUT`; never blocks and never fails. -/
def State.consoleWrite (s : State) (v : Word) : State := { s with out := s.out ++ [v] }

/-- The DDR drain (R184): a non-zero cell is emitted once and cleared. -/
def State.drain (s : State) : State :=
  if s.memRead ddrAddr = 0 then s
  else (s.consoleWrite (s.memRead ddrAddr)).memWrite ddrAddr 0

/-- `IOReconcile()` (R184): the drain, then KBSR and DSR are forced ready. -/
def State.reconcile (s : State) : State :=
  (s.drain.memWrite kbsrAddr readyValue).memWrite dsrAddr readyValue

/-- The end of a step (R110 step 4, R114): the reconciliation follows every instruction that completed. -/
def finish : Result → Result
  | .next s => .next s.reconcile
  | .fault r => .fault r
  | .refused r => .refused r

/-- The default of `CHAR_OF` (R6, D7): the low eight bits. Marked by the spec as its own choice; log 12. -/
def lowByte : CharOf := fun v => v.extractLsb' 0 8

/-- The bytes the console device has received (R182), for any `CHAR_OF`. -/
def State.deviceBytes (charOf : CharOf) (s : State) : List Byte := s.out.map charOf

/-- The console supplies more input: what the environment does while a keyboard LDI waits (R181, R188; log 9). -/
def State.offerInput (s : State) (bytes : List Byte) : State := { s with input := s.input.append bytes }

end Sys2Proof.Machine
end

