-- ==== Sys2Proof/Machine/Loads.lean ====
section
/-! DEFINITION. The load instructions LEA, LD, LDR, LDI (42_loads.md). -/

namespace Sys2Proof.Machine

/-- LEA (R130): the address itself; no memory access, and `cc` follows the address. -/
def execLea (dr : Reg) (offset9 : BitVec 9) (s : State) : Result :=
  .next (s.writeResult dr (s.pcRel9 offset9))

/-- LD (R131): a plain read, of KBDR's cell too (R56). -/
def execLd (dr : Reg) (offset9 : BitVec 9) (s : State) : Result :=
  .next (s.writeResult dr (s.memRead (s.pcRel9 offset9)))

/-- LDR (R132): the base is read before DR is written. -/
def execLdr (dr sr1 : Reg) (offset6 : BitVec 6) (s : State) : Result :=
  .next (s.writeResult dr (s.memRead (s.baseOffset sr1 offset6)))

/-- LDI (R133): when the effective address is KBDR's, one console byte, zero-extended (D6, log 11), replaces the memory
read; with no byte left the step has no successor (R181). -/
def execLdi (dr : Reg) (offset9 : BitVec 9) (s : State) : Result :=
  if s.indirect offset9 = kbdrAddr then
    match s.consoleRead with
    | some (c, t) => .next (t.writeResult dr (zext c))
    | none => .fault .awaitingInput
  else .next (s.writeResult dr (s.memRead (s.indirect offset9)))

end Sys2Proof.Machine
end

