-- ==== Sys2Proof/Machine/Operate.lean ====
section
/-! DEFINITION. The operate instructions ADD, AND, NOT (41_operate.md). Both sources are read before DR is written (R22), and
arithmetic wraps silently (R123). -/

namespace Sys2Proof.Machine

/-- ADD, register form (R120). -/
def execAddReg (dr sr1 sr2 : Reg) (s : State) : Result :=
  .next (s.writeResult dr (s.readReg sr1 + s.readReg sr2))

/-- ADD, immediate form (R120). -/
def execAddImm (dr sr1 : Reg) (imm5 : BitVec 5) (s : State) : Result :=
  .next (s.writeResult dr (s.readReg sr1 + sext imm5))

/-- AND, register form (R121). -/
def execAndReg (dr sr1 sr2 : Reg) (s : State) : Result :=
  .next (s.writeResult dr (s.readReg sr1 &&& s.readReg sr2))

/-- AND, immediate form (R121): the immediate is sign-extended first. -/
def execAndImm (dr sr1 : Reg) (imm5 : BitVec 5) (s : State) : Result :=
  .next (s.writeResult dr (s.readReg sr1 &&& sext imm5))

/-- NOT (R122). -/
def execNot (dr sr1 : Reg) (s : State) : Result :=
  .next (s.writeResult dr (~~~ s.readReg sr1))

end Sys2Proof.Machine
end

