-- ==== Sys2Proof/Machine/Stores.lean ====
section
/-! DEFINITION. The store instructions ST, STR, STI (43_stores.md). The device effects of a store to DDR, KBSR or DSR are the
reconciliation's (R58, R184). -/

namespace Sys2Proof.Machine

/-- ST (R140): the source is the register of bits [11:9] (C1). A store to MCR does not halt. -/
def execSt (sr : Reg) (offset9 : BitVec 9) (s : State) : Result :=
  .next (s.memWrite (s.pcRel9 offset9) (s.readReg sr))

/-- STR (R141). A store to MCR does not halt. -/
def execStr (sr sr1 : Reg) (offset6 : BitVec 6) (s : State) : Result :=
  .next (s.memWrite (s.baseOffset sr1 offset6) (s.readReg sr))

/-- STI (R142): the store, then `halted` when the effective address is MCR's, whatever the value. -/
def execSti (sr : Reg) (offset9 : BitVec 9) (s : State) : Result :=
  if s.indirect offset9 = mcrAddr then
    .next (s.memWrite (s.indirect offset9) (s.readReg sr)).halt
  else .next (s.memWrite (s.indirect offset9) (s.readReg sr))

end Sys2Proof.Machine
end

