-- ==== Sys2Proof/Machine/Unused.lean ====
section
/-! DEFINITION. The two unused opcode patterns (45_unused_opcodes.md): no operation, not an error (R160). -/

namespace Sys2Proof.Machine

/-- The lower unused pattern (R160): nothing. -/
def execUnused8 (s : State) : Result := .next s

/-- The higher unused pattern (R160): nothing. -/
def execUnused13 (s : State) : Result := .next s

end Sys2Proof.Machine
end

