-- ==== Sys2Proof/Machine/Dispatch.lean ====
section
/-! DEFINITION. Dispatch (R112, R113): exactly one instruction rule executes, once. On entry `ir` holds the instruction and
`pc` is already incremented; the reconciliation comes after (Machine/Step.lean). -/

namespace Sys2Proof.Machine

def exec (i : Instr) (s : State) : Host.Outcome State Fault Refusal :=
  match i with
  | .addReg dr sr1 sr2 => Sys2Proof.Machine.execAddReg dr sr1 sr2 s
  | .addImm dr sr1 imm5 => Sys2Proof.Machine.execAddImm dr sr1 imm5 s
  | .andReg dr sr1 sr2 => Sys2Proof.Machine.execAndReg dr sr1 sr2 s
  | .andImm dr sr1 imm5 => Sys2Proof.Machine.execAndImm dr sr1 imm5 s
  | .not dr sr1 => Sys2Proof.Machine.execNot dr sr1 s
  | .lea dr offset9 => Sys2Proof.Machine.execLea dr offset9 s
  | .ld dr offset9 => Sys2Proof.Machine.execLd dr offset9 s
  | .ldr dr sr1 offset6 => Sys2Proof.Machine.execLdr dr sr1 offset6 s
  | .ldi dr offset9 => Sys2Proof.Machine.execLdi dr offset9 s
  | .st sr offset9 => Sys2Proof.Machine.execSt sr offset9 s
  | .str sr sr1 offset6 => Sys2Proof.Machine.execStr sr sr1 offset6 s
  | .sti sr offset9 => Sys2Proof.Machine.execSti sr offset9 s
  | .br n z p offset9 => Sys2Proof.Machine.execBr n z p offset9 s
  | .jmp sr1 => Sys2Proof.Machine.execJmp sr1 s
  | .jsr offset11 => Sys2Proof.Machine.execJsr offset11 s
  | .jsrr sr1 => Sys2Proof.Machine.execJsrr sr1 s
  | .trap trapvect8 => Sys2Proof.Machine.execTrap trapvect8 s
  | .unused8 => Sys2Proof.Machine.execUnused8 s
  | .unused13 => Sys2Proof.Machine.execUnused13 s

end Sys2Proof.Machine
end

