-- ==== Sys2Proof/Machine/Step.lean ====
section
/-! DEFINITION. One step (R110): fetch, decode, dispatch, reconciliation, to completion and not gated by `halted` (R8, R117). It
is written over any opcode map (R6); `step` takes the default one. -/

namespace Sys2Proof.Machine

/-- One step under an opcode map (R110). -/
def stepWith (m : OpcodeMap) (s : State) : Host.Outcome State Fault Refusal :=
  finish (exec (decodeWith m s.fetch.ir) s.fetch)

/-- One step of the machine, under the default opcode map (R86, log 1). -/
def step (s : State) : Host.Outcome State Fault Refusal := stepWith opcodeMap s

/-- The state with an instruction word stored where the next step fetches: the cell at `pc` (R111). It stands for the load
of a program from outside the machine (R200, R203; log 3). -/
def State.withFetchWord (s : State) (nbits w : Nat) : State :=
  s.memWrite s.pc (BitVec.ofNat 16 (w % 2 ^ nbits))

end Sys2Proof.Machine
end

