-- ==== Sys2Proof/Machine/Accesses.lean ====
section
/-! DEFINITION. The memory accesses of one step, in order (R55), as a list beside the step, and what it means for memory to
have gone through them (R62): each read returns the value memory holds at that point, each write changes one cell. -/

namespace Sys2Proof.Machine

/-- One access: `MemRead(a, 1)` answering `v`, or `MemWrite(a, 1, v)`. -/
inductive Access where
  | read (a v : Word)
  | write (a v : Word)
  deriving DecidableEq, Repr

/-- The read an address gets in a state. -/
def State.readAccess (s : State) (a : Word) : Access := .read a (s.memRead a)

/-- The instruction's own accesses, between the fetch and the reconciliation, in order (R55). `s` is the state after the
fetch. -/
def instrAccesses (i : Instr) (s : State) : List Access :=
  match i with
  | .addReg _ _ _ | .addImm _ _ _ | .andReg _ _ _ | .andImm _ _ _ | .not _ _ | .lea _ _ => []
  | .br _ _ _ _ | .jmp _ | .jsr _ | .jsrr _ | .unused8 | .unused13 => []
  | .ld _ offset9 => [s.readAccess (s.pcRel9 offset9)]
  | .ldr _ sr1 offset6 => [s.readAccess (s.baseOffset sr1 offset6)]
  | .ldi _ offset9 =>
    if s.indirect offset9 = kbdrAddr then [s.readAccess (s.pcRel9 offset9)]
    else [s.readAccess (s.pcRel9 offset9), s.readAccess (s.indirect offset9)]
  | .st sr offset9 => [.write (s.pcRel9 offset9) (s.readReg sr)]
  | .str sr sr1 offset6 => [.write (s.baseOffset sr1 offset6) (s.readReg sr)]
  | .sti sr offset9 =>
    [s.readAccess (s.pcRel9 offset9), .write (s.indirect offset9) (s.readReg sr)]
  | .trap trapvect8 => [s.readAccess (vectorCell trapvect8)]

/-- The reconciliation's accesses (R55, R184); `s` is the state after the instruction. -/
def reconcileAccesses (s : State) : List Access :=
  s.readAccess ddrAddr ::
    ((if s.memRead ddrAddr = 0 then [] else [.write ddrAddr 0]) ++
      [.write kbsrAddr readyValue, .write dsrAddr readyValue])

/-- All accesses of a step that completes, in order (R55); `none` for a step that has no successor. -/
def stepAccesses (m : OpcodeMap) (s : State) : Option (List Access) :=
  match exec (decodeWith m s.fetch.ir) s.fetch with
  | .next t =>
    some (s.readAccess s.pc :: (instrAccesses (decodeWith m s.fetch.ir) s.fetch ++ reconcileAccesses t))
  | .fault _ => none
  | .refused _ => none

/-- Memory after a list of accesses, when every read among them returns what memory holds at that point (R62 c). -/
def replay : Memory → List Access → Option Memory
  | mem, [] => some mem
  | mem, .read a v :: rest => if mem.read a.toNat = v then replay mem rest else none
  | mem, .write a v :: rest => replay (mem.write a.toNat v) rest

end Sys2Proof.Machine
end

