-- ==== Sys2Proof/Machine/Observe.lean ====
section
/-! DEFINITION. The observation interface (R11, R187): the read-only snapshot at a step boundary. How the display shows it is
out of scope (R4). -/

namespace Sys2Proof.Machine

/-- What the display and the driver read: the registers, the pc and the ir as 16-bit values, the tag of the condition code,
and `isHalted`. -/
structure Snapshot where
  x      : Regs
  pc     : Word
  ir     : Word
  tag    : Char
  halted : Bool
  deriving DecidableEq, Repr

/-- Taking the snapshot (R11); it changes no state. -/
def State.snapshot (s : State) : Snapshot := ⟨s.x, s.pc, s.ir, s.cc.tag, s.halted⟩

end Sys2Proof.Machine
end

