-- ==== Sys2Proof/Machine/Run.lean ====
section
/-! DEFINITION. The run (R116): the driver's loop, in scope only as the definition of what a program's execution is. It
requests steps while `halted` is false at the step boundary. -/

namespace Sys2Proof.Machine

/-- At most `n` steps of the driver's loop under an opcode map (R116): it stops, with the state it has, at the first
boundary where `halted` is true, and at a step that has no successor (R181). -/
def runWith (m : OpcodeMap) : Nat → State → Result
  | 0, s => .next s
  | n + 1, s =>
    if s.halted then .next s
    else
      match stepWith m s with
      | .next t => runWith m n t
      | .fault r => .fault r
      | .refused r => .refused r

/-- The driver's loop under the default opcode map. -/
def run (n : Nat) (s : State) : Result := runWith opcodeMap n s

/-- `n` steps requested one after another, halted or not (R8, R117). -/
def stepsWith (m : OpcodeMap) : Nat → State → Result
  | 0, s => .next s
  | n + 1, s =>
    match stepWith m s with
    | .next t => stepsWith m n t
    | .fault r => .fault r
    | .refused r => .refused r

end Sys2Proof.Machine
end

