-- ==== Sys2Proof/Safety.lean ====
section
/-! DEFINITION. The terms claims are made in: what a legal state is, when a step completes, the launch premises of R205, and the
register, flag, memory and pc tables of the spec (R22, R24, R28) as predicates on the states before and after. -/

namespace Sys2Proof.Machine

/-! Legal states. -/

/-- The invariant of the model: memory in its canonical form, and the input position inside the input. -/
abbrev State.wf (s : State) : Prop := s.mem.wf ∧ s.input.reaches s.inpos = true

/-- The device cells at a step boundary (R33). -/
abbrev State.devicesSettled (s : State) : Prop :=
  s.memRead kbsrAddr = readyValue ∧ s.memRead dsrAddr = readyValue ∧ s.memRead ddrAddr = 0

/-- Some input is left (R36): always, when the input is endless. -/
abbrev State.hasInput (s : State) : Prop := (s.input.byteAt s.inpos).isSome = true

/-- A safe run: `n` steps of the driver's loop, none of which waits for ever or is refused. -/
def SafeRun (m : OpcodeMap) (n : Nat) (s : State) : Prop := ∃ t, runWith m n s = .next t

/-! Launch premises (R205). -/

/-- `NotHalted`. -/
abbrev NotHalted (s : State) : Prop := s.halted = false

/-- `ImageAt(base, words)`, addresses modulo 65536. -/
def ImageAt (base : Word) : List Word → State → Prop
  | [], _ => True
  | w :: ws, s => s.memRead base = w ∧ ImageAt (base + 1) ws s

/-- `EntryAt(a)`. -/
abbrev EntryAt (a : Word) (s : State) : Prop := s.pc = a

/-- `VectorSet(v, a)`. -/
abbrev VectorSet (v : BitVec 8) (a : Word) (s : State) : Prop := s.memRead (vectorCell v) = a

/-- `CleanDevices`. -/
abbrev CleanDevices (s : State) : Prop := s.devicesSettled

/-- `InputIs(bytes)`: INPUT begins with these bytes, and none is consumed yet. -/
abbrev InputIs (bytes : List Byte) (s : State) : Prop :=
  (∀ k, k < bytes.length → s.input.byteAt k = bytes[k]?) ∧ s.inpos = 0

/-! What changes between two states. -/

/-- Every register but `d` is unchanged. -/
abbrev RegsSameBut (d : Reg) (s t : State) : Prop := ∀ r, r ≠ d → t.readReg r = s.readReg r

/-- Every register is unchanged. -/
abbrev RegsSame (s t : State) : Prop := ∀ r, t.readReg r = s.readReg r

/-- Every cell is unchanged. -/
abbrev MemSame (s t : State) : Prop := ∀ a, t.memRead a = s.memRead a

/-- Every cell but the one at `d` is unchanged. -/
abbrev MemSameBut (d : Word) (s t : State) : Prop := ∀ a, a ≠ d → t.memRead a = s.memRead a

/-- The console environment is unchanged (R36, R37). -/
abbrev ConsoleSame (s t : State) : Prop := t.input = s.input ∧ t.inpos = s.inpos ∧ t.out = s.out

/-- Everything but the registers and `cc` is unchanged: what the operate instructions and the loads leave alone. -/
abbrev RestSame (s t : State) : Prop :=
  MemSame s t ∧ ConsoleSame s t ∧ t.pc = s.pc ∧ t.ir = s.ir ∧ t.halted = s.halted

/-- The condition code is the sign of a value (R27). -/
abbrev SignOf (v : Word) (cc : CC) : Prop :=
  (cc = .zero ↔ v = 0) ∧ (cc = .negative ↔ v.signed < 0) ∧ (cc = .positive ↔ 0 < v.signed)

end Sys2Proof.Machine

namespace Sys2Proof

open Machine

/-! The tables of 10_state.md. -/

/-- The register an instruction writes (R22). -/
def Instr.writesReg : Instr → Option Reg
  | .addReg dr _ _ | .addImm dr _ _ | .andReg dr _ _ | .andImm dr _ _ | .not dr _ => some dr
  | .lea dr _ | .ld dr _ | .ldr dr _ _ | .ldi dr _ => some dr
  | .st _ _ | .str _ _ _ | .sti _ _ | .br _ _ _ _ | .jmp _ => none
  | .jsr _ | .jsrr _ | .trap _ => some .r7
  | .unused8 | .unused13 => none

/-- The seven operations that set the condition code (R28). -/
def Instr.setsCC : Instr → Bool
  | .addReg _ _ _ | .addImm _ _ _ | .andReg _ _ _ | .andImm _ _ _ | .not _ _ => true
  | .lea _ _ | .ld _ _ | .ldr _ _ _ | .ldi _ _ => true
  | .st _ _ | .str _ _ _ | .sti _ _ | .br _ _ _ _ | .jmp _ | .jsr _ | .jsrr _ | .trap _ => false
  | .unused8 | .unused13 => false

/-- The cell an instruction stores to and the value it stores there, from the state it starts in (R55, R143). -/
def Instr.store (i : Instr) (s : State) : Option (Word × Word) :=
  match i with
  | .st sr offset9 => some (s.pcRel9 offset9, s.readReg sr)
  | .str sr sr1 offset6 => some (s.baseOffset sr1 offset6, s.readReg sr)
  | .sti sr offset9 => some (s.indirect offset9, s.readReg sr)
  | .addReg _ _ _ | .addImm _ _ _ | .andReg _ _ _ | .andImm _ _ _ | .not _ _ => none
  | .lea _ _ | .ld _ _ | .ldr _ _ _ | .ldi _ _ => none
  | .br _ _ _ _ | .jmp _ | .jsr _ | .jsrr _ | .trap _ | .unused8 | .unused13 => none

/-- The pc at the end of an instruction (R24), from the state after the fetch. -/
def Instr.pcAfter (i : Instr) (s : State) : Word :=
  match i with
  | .br n z p offset9 => if s.cc.taken n z p then s.pcRel9 offset9 else s.pc
  | .jmp sr1 => s.readReg sr1
  | .jsr offset11 => s.pcRel11 offset11
  | .jsrr sr1 => if sr1 = .r7 then s.pc else s.readReg sr1
  | .trap trapvect8 => s.memRead (vectorCell trapvect8)
  | .addReg _ _ _ | .addImm _ _ _ | .andReg _ _ _ | .andImm _ _ _ | .not _ _ => s.pc
  | .lea _ _ | .ld _ _ | .ldr _ _ _ | .ldi _ _ => s.pc
  | .st _ _ | .str _ _ _ | .sti _ _ | .unused8 | .unused13 => s.pc

/-- The instruction reads a console byte: an LDI whose effective address is KBDR's (R133). -/
def Instr.readsConsole (i : Instr) (s : State) : Bool :=
  match i with
  | .ldi _ offset9 => s.indirect offset9 == kbdrAddr
  | .addReg _ _ _ | .addImm _ _ _ | .andReg _ _ _ | .andImm _ _ _ | .not _ _ => false
  | .lea _ _ | .ld _ _ | .ldr _ _ _ | .st _ _ | .str _ _ _ | .sti _ _ => false
  | .br _ _ _ _ | .jmp _ | .jsr _ | .jsrr _ | .trap _ | .unused8 | .unused13 => false

/-- The instruction halts the machine: an STI whose effective address is MCR's (R142). -/
def Instr.halts (i : Instr) (s : State) : Bool :=
  match i with
  | .sti _ offset9 => s.indirect offset9 == mcrAddr
  | .addReg _ _ _ | .addImm _ _ _ | .andReg _ _ _ | .andImm _ _ _ | .not _ _ => false
  | .lea _ _ | .ld _ _ | .ldr _ _ _ | .st _ _ | .str _ _ _ | .ldi _ _ => false
  | .br _ _ _ _ | .jmp _ | .jsr _ | .jsrr _ | .trap _ | .unused8 | .unused13 => false

/-- The instruction would wait for the console for ever: a keyboard LDI with no input left (R181). -/
def Instr.awaitsInput (i : Instr) (s : State) : Bool := i.readsConsole s && !decide s.hasInput

end Sys2Proof
end

