-- ==== Sys2Proof/Certificates/Slice0/Obligations.lean ====
section
/-! DEFINITION. The statements for the provers. Each docstring names the rule of spec/ it formalises, or says what it is
derived from. Statements about decoding or stepping are made of every opcode map wherever the default does not matter. -/

open Sys2Proof Sys2Proof.Machine

/-! Words, operands, flags. -/

/-- R14: sign extension keeps the field's bits and repeats its top bit above them; zero extension puts zeros there. With
the two numeric forms of the rule, for every field width. -/
def Obligations.ExtensionsKeepTheField : Prop :=
  ∀ (n : Nat) (f : BitVec n), 0 < n → n ≤ 16 →
    (∀ k, k < 16 → (sext f).getLsbD k = if k < n then f.getLsbD k else f.getLsbD (n - 1)) ∧
    (sext f).toNat = (if f.toNat < 2 ^ (n - 1) then f.toNat else f.toNat + 65536 - 2 ^ n) ∧
    (∀ k, k < 16 → (zext f).getLsbD k = if k < n then f.getLsbD k else false) ∧
    (zext f).toNat = f.toNat

/-- R27: SetCC gives Zero, Negative or Positive by the signed reading of the value and changes nothing but `cc`; every
CC-setting instruction ends with it, on the value just written to its destination register. -/
def Obligations.SetCCFollowsTheSign : Prop :=
  (∀ (s : State) (v : Word),
    SignOf v (s.setCC v).cc ∧ RegsSame s (s.setCC v) ∧ RestSame s (s.setCC v)) ∧
  ∀ (i : Instr) (s t : State), i.setsCC = true → exec i s = .next t →
    ∃ dr, i.writesReg = some dr ∧ SignOf (t.readReg dr) t.cc

/-- Derived from R54: every effective address is a sum modulo 65536, of signed offsets and an unsigned vector. -/
def Obligations.EffectiveAddressesWrap : Prop :=
  ∀ (s : State) (b : Reg) (f9 : BitVec 9) (f6 : BitVec 6) (v : BitVec 8),
    ((s.pcRel9 f9).toNat : Int) = ((s.pc.toNat : Int) + f9.toInt) % 65536 ∧
    ((s.baseOffset b f6).toNat : Int) = (((s.readReg b).toNat : Int) + f6.toInt) % 65536 ∧
    s.indirect f9 = s.memRead (s.pcRel9 f9) ∧
    (vectorCell v).toNat = v.toNat ∧
    s.fetch.ir = s.memRead s.pc

/-! Memory. -/

/-- R50: a write sets one cell and no other; a register, a flag or the console is not touched by it. -/
def Obligations.WriteChangesOneCell : Prop :=
  ∀ (s : State) (a v : Word),
    (s.memWrite a v).memRead a = v ∧ MemSameBut a s (s.memWrite a v) ∧
    RegsSame s (s.memWrite a v) ∧ ConsoleSame s (s.memWrite a v) ∧
    (s.memWrite a v).pc = s.pc ∧ (s.memWrite a v).ir = s.ir ∧ (s.memWrite a v).cc = s.cc ∧
    (s.memWrite a v).halted = s.halted

/-- Derived, about the model's own representation (log 8): two memories in canonical form that read alike at all 65536
addresses are the same list. -/
def Obligations.CanonicalMemoryIsUnique : Prop :=
  ∀ m n : Memory, m.wf → n.wf → (∀ a : Word, m.read a.toNat = n.read a.toNat) → m = n

/-! Encoding. -/

/-- Derived from the formats of R82 and the fields of R81 and R83: under every injective opcode map, decoding an encoded
instruction gives it back, with every operand at every value. -/
def Obligations.DecodeOfEncode : Prop :=
  ∀ (m : OpcodeMap) (i : Instr), m.wf → i.wf → decodeWith m (encodeWith m i) = i

/-- Derived from R87, on the default opcode map (log 1): every word is in exactly one row of the opcode table, the row of the
instruction it decodes to; the opcode, bit 5 and bit 11 are all that selects it. -/
def Obligations.EveryWordHasOneRow : Prop :=
  ∀ w : Word, (decode w).row.holds w ∧ (∀ i : Instr, i.row.holds w → i.row = (decode w).row) ∧
    ∀ v : Word, opcodeField v = opcodeField w → immFlag v = immFlag w → jsrFlag v = jsrFlag w →
      (decode v).row = (decode w).row

/-- Derived from R88, the spec's own decision (D3, log 14): under every opcode map, words that differ only in the bits their
row ignores decode alike. -/
def Obligations.IgnoredBitsDoNotMatter : Prop :=
  ∀ (m : OpcodeMap) (v w : Word), (decodeWith m v).row.sameButIgnored v w → decodeWith m w = decodeWith m v

/-- Derived from R81, R82 and R88: under every injective opcode map no other bit is dropped, since encoding a decoded word
gives the word back up to the ignored bits. -/
def Obligations.EncodeOfDecodeKeepsEveryNamedBit : Prop :=
  ∀ (m : OpcodeMap) (w : Word), m.wf →
    (decodeWith m w).row.sameButIgnored (encodeWith m (decodeWith m w)) w

/-- Derived from R82's patterns at words the spec writes out (95_test_vectors.md), one of each row. It rests on the default
opcode map (log 1). -/
def Obligations.SpecWordsDecode : Prop :=
  decode 0x14C4 = .addReg .r2 .r3 .r4 ∧ decode 0x103F = .addImm .r0 .r0 0b11111 ∧
  decode 0x5283 = .andReg .r1 .r2 .r3 ∧ decode 0x52B0 = .andImm .r1 .r2 0b10000 ∧
  decode 0x92BF = .not .r1 .r2 ∧ decode 0xE209 = .lea .r1 9 ∧ decode 0x2406 = .ld .r2 6 ∧
  decode 0x64E0 = .ldr .r2 .r3 0b100000 ∧ decode 0xA003 = .ldi .r0 3 ∧
  decode 0x3605 = .st .r3 5 ∧ decode 0x72BF = .str .r1 .r2 0b111111 ∧ decode 0xB204 = .sti .r1 4 ∧
  decode 0x03FD = .br false false true 0x1FD ∧ decode 0xC1C0 = .jmp .r7 ∧
  decode 0x4804 = .jsr 4 ∧ decode 0x46BF = .jsrr .r2 ∧ decode 0xFF25 = .trap 0x25 ∧
  decode 0x8FFF = .unused8 ∧ decode 0xD123 = .unused13

/-! The operate instructions. -/

/-- R120, both forms: ADD completes in every state; DR takes the sum modulo 65536 of values read before DR is written, `cc`
its sign, and nothing else changes. -/
def Obligations.AddWritesTheSum : Prop :=
  ∀ (s : State) (dr sr1 sr2 : Reg) (imm5 : BitVec 5),
    (∃ t, exec (.addReg dr sr1 sr2) s = .next t ∧
      (t.readReg dr).toNat = ((s.readReg sr1).toNat + (s.readReg sr2).toNat) % 65536 ∧
      SignOf (t.readReg dr) t.cc ∧ RegsSameBut dr s t ∧ RestSame s t) ∧
    (∃ t, exec (.addImm dr sr1 imm5) s = .next t ∧
      ((t.readReg dr).toNat : Int) = (((s.readReg sr1).toNat : Int) + imm5.toInt) % 65536 ∧
      SignOf (t.readReg dr) t.cc ∧ RegsSameBut dr s t ∧ RestSame s t)

/-- R121, both forms: AND completes in every state; each bit of DR is the conjunction of the operands' bits, the immediate's
bit 4 standing for all bits above it. -/
def Obligations.AndConjoinsTheBits : Prop :=
  ∀ (s : State) (dr sr1 sr2 : Reg) (imm5 : BitVec 5),
    (∃ t, exec (.andReg dr sr1 sr2) s = .next t ∧
      (∀ k, k < 16 → (t.readReg dr).getLsbD k = ((s.readReg sr1).getLsbD k && (s.readReg sr2).getLsbD k)) ∧
      SignOf (t.readReg dr) t.cc ∧ RegsSameBut dr s t ∧ RestSame s t) ∧
    (∃ t, exec (.andImm dr sr1 imm5) s = .next t ∧
      (∀ k, k < 16 → (t.readReg dr).getLsbD k = ((s.readReg sr1).getLsbD k && imm5.getLsbD (min k 4))) ∧
      SignOf (t.readReg dr) t.cc ∧ RegsSameBut dr s t ∧ RestSame s t)

/-- R122: NOT completes in every state and DR takes 65535 minus the source. -/
def Obligations.NotComplements : Prop :=
  ∀ (s : State) (dr sr1 : Reg),
    ∃ t, exec (.not dr sr1) s = .next t ∧
      (t.readReg dr).toNat = 65535 - (s.readReg sr1).toNat ∧
      SignOf (t.readReg dr) t.cc ∧ RegsSameBut dr s t ∧ RestSame s t

/-! The loads. -/

/-- R130: LEA completes in every state; DR takes the address itself, modulo 65536, and `cc` its sign. -/
def Obligations.LeaWritesTheAddress : Prop :=
  ∀ (s : State) (dr : Reg) (f : BitVec 9),
    ∃ t, exec (.lea dr f) s = .next t ∧
      ((t.readReg dr).toNat : Int) = ((s.pc.toNat : Int) + f.toInt) % 65536 ∧
      SignOf (t.readReg dr) t.cc ∧ RegsSameBut dr s t ∧ RestSame s t

/-- R131: LD completes in every state, at every address: DR takes the cell at pc plus the offset. No input is consumed, at
KBDR's address either. -/
def Obligations.LdReadsThePcRelativeCell : Prop :=
  ∀ (s : State) (dr : Reg) (f : BitVec 9),
    ∃ t, exec (.ld dr f) s = .next t ∧
      (∀ a : Word, (a.toNat : Int) = ((s.pc.toNat : Int) + f.toInt) % 65536 → t.readReg dr = s.memRead a) ∧
      SignOf (t.readReg dr) t.cc ∧ RegsSameBut dr s t ∧ RestSame s t

/-- R132: LDR completes in every state, at every address: DR takes the cell at the base, read before DR is written, plus the
offset. -/
def Obligations.LdrReadsTheBasePlusOffsetCell : Prop :=
  ∀ (s : State) (dr b : Reg) (f : BitVec 6),
    ∃ t, exec (.ldr dr b f) s = .next t ∧
      (∀ a : Word, (a.toNat : Int) = (((s.readReg b).toNat : Int) + f.toInt) % 65536 →
        t.readReg dr = s.memRead a) ∧
      SignOf (t.readReg dr) t.cc ∧ RegsSameBut dr s t ∧ RestSame s t

/-- Derived from R133, its three cases, with the spec's decisions D6 and D8 (logs 10 and 11): an effective address other than 0xFE02 is read from memory; at 0xFE02 one byte of input is
consumed instead and arrives zero-extended; with no input left the step has no successor (R181). -/
def Obligations.LdiReadsTheCellOrTheConsole : Prop :=
  ∀ (s : State) (dr : Reg) (f : BitVec 9),
    (s.indirect f ≠ 0xFE02 →
      ∃ t, exec (.ldi dr f) s = .next t ∧ t.readReg dr = s.memRead (s.indirect f) ∧
        SignOf (t.readReg dr) t.cc ∧ RegsSameBut dr s t ∧ RestSame s t) ∧
    (∀ c : Byte, s.indirect f = 0xFE02 → s.input.byteAt s.inpos = some c →
      ∃ t, exec (.ldi dr f) s = .next t ∧ (t.readReg dr).toNat = c.toNat ∧
        SignOf (t.readReg dr) t.cc ∧ RegsSameBut dr s t ∧ MemSame s t ∧
        t.inpos = s.inpos + 1 ∧ t.input = s.input ∧ t.out = s.out ∧
        t.pc = s.pc ∧ t.ir = s.ir ∧ t.halted = s.halted) ∧
    (s.indirect f = 0xFE02 → s.input.byteAt s.inpos = none → exec (.ldi dr f) s = .fault .awaitingInput)

/-- R185, derived: once the device cells are settled, a program that loads KBSR or DSR by LD, LDR or LDI sees 0x8000 and
`cc` Negative, so a poll falls through. -/
def Obligations.PollingSeesReady : Prop :=
  ∀ (s : State) (dr b : Reg) (f9 : BitVec 9) (f6 : BitVec 6) (a : Word), s.devicesSettled →
    (a = 0xFE00 ∨ a = 0xFE04) →
    (s.pcRel9 f9 = a → ∃ t, exec (.ld dr f9) s = .next t ∧ t.readReg dr = 0x8000 ∧ t.cc = .negative) ∧
    (s.baseOffset b f6 = a → ∃ t, exec (.ldr dr b f6) s = .next t ∧ t.readReg dr = 0x8000 ∧ t.cc = .negative) ∧
    (s.indirect f9 = a → ∃ t, exec (.ldi dr f9) s = .next t ∧ t.readReg dr = 0x8000 ∧ t.cc = .negative)

/-! The stores. -/

/-- R140: ST completes in every state and stores the register at pc plus the offset; registers, `cc`, pc, `halted` and the
console stay, and every other cell. -/
def Obligations.StStoresAtThePcRelativeCell : Prop :=
  ∀ (s : State) (sr : Reg) (f : BitVec 9),
    ∃ t, exec (.st sr f) s = .next t ∧
      (∀ a : Word, a = s.pcRel9 f → t.memRead a = s.readReg sr ∧ MemSameBut a s t) ∧
      RegsSame s t ∧ ConsoleSame s t ∧
      t.pc = s.pc ∧ t.ir = s.ir ∧ t.cc = s.cc ∧ t.halted = s.halted

/-- R141: STR completes in every state and stores the register at base plus offset, MCR's address included, where it does
not halt. -/
def Obligations.StrStoresAtTheBasePlusOffsetCell : Prop :=
  ∀ (s : State) (sr b : Reg) (f : BitVec 6),
    ∃ t, exec (.str sr b f) s = .next t ∧
      (∀ a : Word, a = s.baseOffset b f → t.memRead a = s.readReg sr ∧ MemSameBut a s t) ∧
      RegsSame s t ∧ ConsoleSame s t ∧
      t.pc = s.pc ∧ t.ir = s.ir ∧ t.cc = s.cc ∧ t.halted = s.halted

/-- R142: STI completes in every state, stores through the pointer cell read first, and sets `halted` exactly when the
effective address is 0xFFFE, whatever the value; elsewhere `halted` is unchanged. -/
def Obligations.StiStoresThroughThePointer : Prop :=
  ∀ (s : State) (sr : Reg) (f : BitVec 9),
    ∃ t, exec (.sti sr f) s = .next t ∧
      (∀ a : Word, a = s.indirect f → t.memRead a = s.readReg sr ∧ MemSameBut a s t) ∧
      (s.indirect f = 0xFFFE → t.halted = true) ∧
      (s.indirect f ≠ 0xFFFE → t.halted = s.halted) ∧
      RegsSame s t ∧ ConsoleSame s t ∧ t.pc = s.pc ∧ t.ir = s.ir ∧ t.cc = s.cc

/-- Derived from R143: each of the three stores, at whatever address, completes and writes the whole value of `x[SR]` into one cell; it
writes no register and changes neither `cc` nor `pc`. -/
def Obligations.StoresWriteOneWholeCell : Prop :=
  ∀ (i : Instr) (s : State) (sr : Reg),
    ((∃ f, i = .st sr f) ∨ (∃ b f, i = .str sr b f) ∨ (∃ f, i = .sti sr f)) →
    ∃ a t, i.store s = some (a, s.readReg sr) ∧ exec i s = .next t ∧
      t.memRead a = s.readReg sr ∧ MemSameBut a s t ∧ RegsSame s t ∧ t.cc = s.cc ∧ t.pc = s.pc

/-! Control transfer. -/

/-- R150: BR completes in every state; the pc takes the PC-relative target when the condition bits match `cc`, OR-combined,
and otherwise stays at the incremented pc; nothing else changes. -/
def Obligations.BrTestsTheConditionCode : Prop :=
  ∀ (s : State) (n z p : Bool) (f : BitVec 9),
    ∃ t, exec (.br n z p f) s = .next t ∧
      ((n = true ∧ s.cc = .negative) ∨ (z = true ∧ s.cc = .zero) ∨ (p = true ∧ s.cc = .positive) →
        (t.pc.toNat : Int) = ((s.pc.toNat : Int) + f.toInt) % 65536) ∧
      (¬ ((n = true ∧ s.cc = .negative) ∨ (z = true ∧ s.cc = .zero) ∨ (p = true ∧ s.cc = .positive)) →
        t.pc = s.pc) ∧
      RegsSame s t ∧ MemSame s t ∧ ConsoleSame s t ∧ t.ir = s.ir ∧ t.cc = s.cc ∧ t.halted = s.halted

/-- Derived from R29: with the one-hot pattern of `cc`, BR's test is `(ir[11:9] & ccbits) != 0` of the word it decodes
from. The pattern is the spec's own decision (D11). -/
def Obligations.BrTestIsAMaskOfTheWord : Prop :=
  ∀ (w : Word) (cc : CC),
    cc.taken (nFlag w) (zFlag w) (pFlag w) = true ↔ w.extractLsb' 9 3 &&& cc.bits ≠ 0

/-- R151: JMP completes in every state and changes the pc alone, to the value of the base register. -/
def Obligations.JmpGoesToTheRegister : Prop :=
  ∀ (s : State) (b : Reg),
    ∃ t, exec (.jmp b) s = .next t ∧ t.pc = s.readReg b ∧
      RegsSame s t ∧ MemSame s t ∧ ConsoleSame s t ∧ t.ir = s.ir ∧ t.cc = s.cc ∧ t.halted = s.halted

/-- Derived from R152 and the spec's decision D4 (log 13), both forms: the return address goes into `x[7]` and `cc` stays; the PC-relative form adds to the pc it saved, the
register form reads its base after `x[7]` was written, so base register 7 falls through. -/
def Obligations.JsrLinksThenJumps : Prop :=
  ∀ (s : State) (f : BitVec 11) (b : Reg),
    (∃ t, exec (.jsr f) s = .next t ∧ t.readReg .r7 = s.pc ∧
      (t.pc.toNat : Int) = ((s.pc.toNat : Int) + f.toInt) % 65536 ∧
      RegsSameBut .r7 s t ∧ MemSame s t ∧ ConsoleSame s t ∧
      t.ir = s.ir ∧ t.cc = s.cc ∧ t.halted = s.halted) ∧
    (∃ t, exec (.jsrr b) s = .next t ∧ t.readReg .r7 = s.pc ∧
      (b ≠ .r7 → t.pc = s.readReg b) ∧ (b = .r7 → t.pc = s.pc) ∧
      RegsSameBut .r7 s t ∧ MemSame s t ∧ ConsoleSame s t ∧
      t.ir = s.ir ∧ t.cc = s.cc ∧ t.halted = s.halted)

/-- R153: TRAP saves the incremented pc in `x[7]` and nowhere else, and goes to the address the vector's cell holds,
0x0000..0x00FF; no flag and no cell changes. -/
def Obligations.TrapVectorsThroughTheTable : Prop :=
  ∀ (s : State) (v : BitVec 8),
    ∃ t, exec (.trap v) s = .next t ∧ t.readReg .r7 = s.pc ∧
      (∀ a : Word, a.toNat = v.toNat → t.pc = s.memRead a) ∧
      RegsSameBut .r7 s t ∧ MemSame s t ∧ ConsoleSame s t ∧
      t.ir = s.ir ∧ t.cc = s.cc ∧ t.halted = s.halted

/-- Derived from R173 and R154: after JSR, JSRR or TRAP, a JMP R7 in any state that still holds the link comes back to the
pc of the call's end, and restores only the pc. -/
def Obligations.JumpThroughTheLinkReturns : Prop :=
  ∀ (i : Instr) (s t u : State), i.writesReg = some .r7 → i.setsCC = false → exec i s = .next t →
    u.readReg .r7 = t.readReg .r7 →
    ∃ w, exec (.jmp .r7) u = .next w ∧ w.pc = s.pc ∧
      RegsSame u w ∧ MemSame u w ∧ ConsoleSame u w ∧ w.cc = u.cc ∧ w.halted = u.halted

/-! The unused patterns. -/

/-- R160: both unused patterns complete in every state and change nothing; the whole step is the fetch, the pc's increment and
the reconciliation, under every opcode map. -/
def Obligations.UnusedPatternsDoNothing : Prop :=
  (∀ s : State, exec .unused8 s = .next s ∧ exec .unused13 s = .next s) ∧
  ∀ (m : OpcodeMap) (s : State),
    (decodeWith m (s.memRead s.pc) = .unused8 ∨ decodeWith m (s.memRead s.pc) = .unused13) →
    ∃ t, stepWith m s = .next t ∧ t.pc = s.pc + 1 ∧ t.ir = s.memRead s.pc ∧ RegsSame s t ∧
      t.cc = s.cc ∧ t.halted = s.halted ∧ t.input = s.input ∧ t.inpos = s.inpos ∧
      t.out = (if s.memRead 0xFE06 = 0 then s.out else s.out ++ [s.memRead 0xFE06]) ∧
      ∀ a, a ≠ 0xFE00 → a ≠ 0xFE04 → a ≠ 0xFE06 → t.memRead a = s.memRead a

/-! What every instruction does: the tables of 10_state.md and the frames. -/

/-- Derived from R115, with the spec's decision D8 (log 10): every instruction and every step completes in every state, with
one exception that is a wait and no failure: a keyboard LDI with no input left. -/
def Obligations.OnlyTheKeyboardWaits : Prop :=
  (∀ (i : Instr) (s : State),
    (¬ i.awaitsInput s → ∃ t, exec i s = .next t) ∧
    (i.awaitsInput s → exec i s = .fault .awaitingInput)) ∧
  ∀ (m : OpcodeMap) (s : State),
    (¬ (decodeWith m (s.memRead s.pc)).awaitsInput s.fetch → ∃ t, stepWith m s = .next t) ∧
    ((decodeWith m (s.memRead s.pc)).awaitsInput s.fetch → stepWith m s = .fault .awaitingInput)

/-- Derived from the write column of R22: an instruction leaves every register alone but the one the table names. -/
def Obligations.OnlyTheTablesRegisterChanges : Prop :=
  ∀ (i : Instr) (s t : State), exec i s = .next t →
    ∀ r, i.writesReg ≠ some r → t.readReg r = s.readReg r

/-- Derived from R24's table: the pc at the end of a step is what the table says, from the incremented pc. One cell of the
table, JSR through base register 7, which falls through, is the spec's decision D4 (R152 (b), U8; log 13). -/
def Obligations.PcFollowsTheTable : Prop :=
  ∀ (m : OpcodeMap) (s t : State), stepWith m s = .next t →
    s.fetch.pc = s.pc + 1 ∧ t.pc = (decodeWith m (s.memRead s.pc)).pcAfter s.fetch

/-- R28: `cc` is written by the seven CC-setting operations alone, from the value of their destination register, and read by BR
alone: the others do the same whatever `cc` is. -/
def Obligations.OnlySevenSetTheConditionCode : Prop :=
  ∀ (i : Instr) (s t : State), exec i s = .next t →
    (i.setsCC = false → t.cc = s.cc) ∧
    (i.setsCC = true → ∃ dr, i.writesReg = some dr ∧ SignOf (t.readReg dr) t.cc) ∧
    (∀ c, i.setsCC = true → exec i { s with cc := c } = .next t) ∧
    (∀ c, i.setsCC = false → (∀ n z p f, i ≠ .br n z p f) →
      exec i { s with cc := c } = .next { t with cc := c })

/-- R30: `halted` is set by STI with effective address 0xFFFE and by nothing else, is never cleared, and no instruction reads
it. -/
def Obligations.OnlyStiToMcrHalts : Prop :=
  ∀ (i : Instr) (s t : State), exec i s = .next t →
    t.halted = (s.halted || i.halts s) ∧
    ∀ h, exec i { s with halted := h } = .next { t with halted := h || i.halts s }

/-- Derived from R55, R56 and R58: every cell but the one an instruction stores to is unchanged, all of memory for one that
stores nothing. -/
def Obligations.MemoryChangesOnlyAtTheStore : Prop :=
  ∀ (i : Instr) (s t : State), exec i s = .next t →
    (i.store s = none → MemSame s t) ∧
    (∀ a v, i.store s = some (a, v) → t.memRead a = v ∧ MemSameBut a s t)

/-- Derived from R36, R181 and R182: an instruction consumes one byte exactly when it is a keyboard LDI, none otherwise, and
emits nothing. -/
def Obligations.OnlyTheKeyboardConsumesInput : Prop :=
  ∀ (i : Instr) (s t : State), exec i s = .next t →
    t.input = s.input ∧ t.out = s.out ∧
    t.inpos = (if i.readsConsole s then s.inpos + 1 else s.inpos)

/-! The step. -/

/-- R110: a step at the fetched word's instruction is that instruction on the state after the fetch, then the reconciliation;
it stops as the instruction stops. -/
def Obligations.StepRunsTheDecodedInstruction : Prop :=
  ∀ (s : State) (i : Instr), decode (s.memRead s.pc) = i →
    (∀ t, exec i { s with ir := s.memRead s.pc, pc := s.pc + 1 } = .next t → step s = .next t.reconcile) ∧
    (∀ r, exec i { s with ir := s.memRead s.pc, pc := s.pc + 1 } = .fault r → step s = .fault r)

/-- Derived from R110, R82 and R6: under every injective opcode map, the word of an instruction at the pc runs exactly that
instruction; a different assignment of the opcode numbers changes no instruction. The word is the encoder's, with the
ignored bits as log 14 says; other words are covered by StepRunsTheDecodedInstruction with IgnoredBitsDoNotMatter. That a
keyboard LDI with no input left has no successor is R181 and the spec's decision D8, and the name of that stop is the
model's (log 10). -/
def Obligations.StepRunsTheEncodedInstruction : Prop :=
  ∀ (m : OpcodeMap) (s : State) (i : Instr), m.wf → i.wf → s.memRead s.pc = encodeWith m i →
    (¬ i.awaitsInput s.fetch → ∃ t, exec i s.fetch = .next t ∧ stepWith m s = .next t.reconcile) ∧
    (i.awaitsInput s.fetch → stepWith m s = .fault .awaitingInput)

/-- R184: a non-zero DDR is appended to the output once and cleared, then KBSR and DSR are 0x8000; nothing else changes. -/
def Obligations.ReconcileDrainsAndForcesReady : Prop :=
  ∀ s : State,
    s.reconcile.out = (if s.memRead 0xFE06 = 0 then s.out else s.out ++ [s.memRead 0xFE06]) ∧
    s.reconcile.memRead 0xFE06 = 0 ∧ s.reconcile.memRead 0xFE00 = 0x8000 ∧
    s.reconcile.memRead 0xFE04 = 0x8000 ∧
    (∀ a, a ≠ 0xFE00 → a ≠ 0xFE04 → a ≠ 0xFE06 → s.reconcile.memRead a = s.memRead a) ∧
    RegsSame s s.reconcile ∧ s.reconcile.pc = s.pc ∧ s.reconcile.ir = s.ir ∧ s.reconcile.cc = s.cc ∧
    s.reconcile.halted = s.halted ∧ s.reconcile.input = s.input ∧ s.reconcile.inpos = s.inpos

/-- R33: after every step, of whatever instruction, KBSR and DSR hold 0x8000 and DDR holds 0. -/
def Obligations.DeviceCellsAfterEveryStep : Prop :=
  ∀ (m : OpcodeMap) (s t : State), stepWith m s = .next t →
    t.memRead 0xFE00 = 0x8000 ∧ t.memRead 0xFE04 = 0x8000 ∧ t.memRead 0xFE06 = 0x0000

/-- Derived from R25: `ir` holds the word the step fetched; no instruction writes it, and its value before a step is never read. -/
def Obligations.IrHoldsTheFetchedWord : Prop :=
  (∀ (i : Instr) (s t : State), exec i s = .next t → t.ir = s.ir) ∧
  ∀ (m : OpcodeMap) (s : State) (w : Word),
    stepWith m { s with ir := w } = stepWith m s ∧
    ∀ t, stepWith m s = .next t → t.ir = s.memRead s.pc

/-- Derived from R37, R58 and R184: what a step appends to the output, by what it stored to DDR and by what DDR held
before; never more than one element. -/
def Obligations.OutputGrowsByTheDrainedValue : Prop :=
  ∀ (m : OpcodeMap) (s t : State), stepWith m s = .next t →
    (∀ v, (decodeWith m (s.memRead s.pc)).store s.fetch = some (0xFE06, v) →
      t.out = if v = 0 then s.out else s.out ++ [v]) ∧
    ((∀ v, (decodeWith m (s.memRead s.pc)).store s.fetch ≠ some (0xFE06, v)) →
      t.out = if s.memRead 0xFE06 = 0 then s.out else s.out ++ [s.memRead 0xFE06])

/-- R58: the consequences of a store at the end of its step, at each of the four addresses that have one, and at KBDR, which
has none. -/
def Obligations.StoresToDeviceCells : Prop :=
  ∀ (m : OpcodeMap) (s : State) (a v : Word),
    (decodeWith m (s.memRead s.pc)).store s.fetch = some (a, v) →
    ∃ t, stepWith m s = .next t ∧
      (a = 0xFE06 → t.out = (if v = 0 then s.out else s.out ++ [v]) ∧ t.memRead a = 0) ∧
      (a = 0xFE00 ∨ a = 0xFE04 → t.memRead a = 0x8000) ∧
      (a = 0xFFFE → t.memRead a = v) ∧
      (a = 0xFE02 → t.memRead a = v ∧ t.inpos = s.inpos) ∧
      (a ≠ 0xFE00 → a ≠ 0xFE04 → a ≠ 0xFE06 → t.memRead a = v) ∧
      (t.halted = true ↔ s.halted = true ∨
        (a = 0xFFFE ∧ ∃ sr f, decodeWith m (s.memRead s.pc) = .sti sr f))

/-- Derived from R118, the frame of a step whatever the instruction: `ir`, `pc` and the two status cells are written; besides those at most
the table's register, `cc` only together with it, the one stored cell, DDR cleared, `halted` set, one input byte, one
output element. Its pc clause is R24's table, with the spec's decision D4 for JSR through base register 7 (log 13). -/
def Obligations.FrameOfAStep : Prop :=
  ∀ (m : OpcodeMap) (s t : State) (i : Instr), decodeWith m (s.memRead s.pc) = i →
    stepWith m s = .next t →
    t.ir = s.memRead s.pc ∧ t.pc = i.pcAfter s.fetch ∧
    t.memRead 0xFE00 = 0x8000 ∧ t.memRead 0xFE04 = 0x8000 ∧ t.memRead 0xFE06 = 0 ∧
    (∀ r, i.writesReg ≠ some r → t.readReg r = s.readReg r) ∧
    (t.cc = s.cc ∨ ∃ dr, i.writesReg = some dr ∧ SignOf (t.readReg dr) t.cc) ∧
    (i.store s.fetch = none →
      ∀ a, a ≠ 0xFE00 → a ≠ 0xFE04 → a ≠ 0xFE06 → t.memRead a = s.memRead a) ∧
    (∀ d v, i.store s.fetch = some (d, v) →
      ∀ a, a ≠ 0xFE00 → a ≠ 0xFE04 → a ≠ 0xFE06 → t.memRead a = if a = d then v else s.memRead a) ∧
    t.halted = (s.halted || i.halts s.fetch) ∧
    t.input = s.input ∧ t.inpos = (if i.readsConsole s.fetch then s.inpos + 1 else s.inpos) ∧
    (t.out = s.out ∨ ∃ v, v ≠ 0 ∧ t.out = s.out ++ [v])

/-- Derived from R117, which settles by the spec's decision D12 what the source leaves open (R18 item 6; log 17): a step
requested while `halted` is true executes exactly as if it were false, and `halted` stays true. -/
def Obligations.StepIgnoresHalted : Prop :=
  ∀ (m : OpcodeMap) (s : State),
    (∀ t, stepWith m { s with halted := false } = .next t →
      stepWith m { s with halted := true } = .next { t with halted := true }) ∧
    (∀ r, stepWith m { s with halted := false } = .fault r → stepWith m { s with halted := true } = .fault r)

/-- Derived from R65: a store into the cell the next step fetches from is what the next step executes, with nothing between; only the three
cells the reconciliation writes are otherwise. Its pc clause is R24's table, with decision D4 (log 13). -/
def Obligations.NextFetchSeesTheStore : Prop :=
  ∀ (m : OpcodeMap) (s t u : State) (v : Word),
    (decodeWith m (s.memRead s.pc)).store s.fetch = some (s.pc + 1, v) →
    s.pc + 1 ≠ 0xFE00 → s.pc + 1 ≠ 0xFE04 → s.pc + 1 ≠ 0xFE06 →
    stepWith m s = .next t → stepWith m t = .next u →
    u.ir = v ∧ u.pc = (decodeWith m v).pcAfter t.fetch

/-- Derived from R133, R181 and R215: a step that waits for the console completes as soon as one byte is offered, with that
byte in the destination register. That the byte arrives zero-extended is the spec's decision D6 (log 11), that the wait
has no successor its decision D8 (log 10), and that more input is bytes put at the end is how the model holds input
(log 9). -/
def Obligations.WaitingStepResumesWithInput : Prop :=
  ∀ (m : OpcodeMap) (s : State) (c : Byte), s.wf → stepWith m s = .fault .awaitingInput →
    ∃ t dr, stepWith m (s.offerInput [c]) = .next t ∧
      (decodeWith m (s.memRead s.pc)).writesReg = some dr ∧ (t.readReg dr).toNat = c.toNat ∧
      t.inpos = s.inpos + 1 ∧ ¬ t.hasInput

/-- Derived from R37 ("no instruction can read it"): what has been output before a step has no influence on it. -/
def Obligations.OutputIsNeverRead : Prop :=
  ∀ (m : OpcodeMap) (s t : State) (o : List Word), stepWith m s = .next t →
    stepWith m { s with out := o ++ s.out } = .next { t with out := o ++ t.out }

/-- Derived from R36: a step depends on the input through the next byte alone, and on that only in a keyboard LDI; what was
consumed and what comes later has no influence. -/
def Obligations.OnlyTheNextInputByteMatters : Prop :=
  ∀ (m : OpcodeMap) (s t : State) (j : Input), stepWith m s = .next t →
    (j.byteAt s.inpos = s.input.byteAt s.inpos ∨ (decodeWith m (s.memRead s.pc)).readsConsole s.fetch = false) →
    stepWith m { s with input := j } = .next { t with input := j }

/-- Derived from R55 and R62: memory after a step is memory gone through the step's accesses in the order of R55, each read
among them returning the most recent write; there are 4 to 7 of them. -/
def Obligations.MemoryFollowsTheAccessOrder : Prop :=
  ∀ (m : OpcodeMap) (s t : State), stepWith m s = .next t →
    ∃ l, stepAccesses m s = some l ∧ replay s.mem l = some t.mem ∧ 4 ≤ l.length ∧ l.length ≤ 7

/-! Invariants, runs, reset, observation. -/

/-- Derived, the model's invariant: from every legal state a step leads to a legal state: memory stays canonical and the input
position stays inside the input. -/
def Obligations.StepKeepsStateLegal : Prop :=
  ∀ (m : OpcodeMap) (s t : State), s.wf → stepWith m s = .next t → t.wf

/-- Derived, the model's choice (log 7): the state the model starts from is legal. -/
def Obligations.ResetStateIsLegal : Prop := State.reset.wf

/-- Derived from R38: the values the spec gives for the initial state. Every other value of `State.reset` is the model's choice
(logs 2 to 5, 7, 9), and nothing is said of it. -/
def Obligations.ResetValuesTheSpecGives : Prop :=
  NotHalted State.reset ∧ State.reset.inpos = 0 ∧ State.reset.out = []

/-- Derived from R116: the run is the steps up to the first boundary at which `halted` is true, and no further; a run from a
halted state is empty. That a run ends there is the spec's decision D12 (log 17). -/
def Obligations.RunIsTheStepsUpToTheFirstHalt : Prop :=
  ∀ (m : OpcodeMap) (n : Nat) (s t : State),
    runWith m n s = .next t ↔
      ∃ k, k ≤ n ∧ stepsWith m k s = .next t ∧ (k = n ∨ t.halted = true) ∧
        ∀ j, j < k → ∃ u, stepsWith m j s = .next u ∧ u.halted = false

/-- Derived from R30 ("never cleared by the engine itself"): once true, `halted` stays true for every later step. That steps
after it execute at all is the spec's decision D12 (log 17). -/
def Obligations.HaltedStaysSet : Prop :=
  ∀ (m : OpcodeMap) (n : Nat) (s t : State), s.halted = true → stepsWith m n s = .next t → t.halted = true

/-- Derived from R11 and R187: two states show the same snapshot exactly when they agree on the registers, pc, ir, cc and
halted, and on nothing else need they agree. -/
def Obligations.SnapshotShowsExactlyTheObservableState : Prop :=
  ∀ s t : State, s.snapshot = t.snapshot ↔
    RegsSame s t ∧ s.pc = t.pc ∧ s.ir = t.ir ∧ s.cc = t.cc ∧ s.halted = t.halted

/-! Runs over the console's input, finite or endless. -/

/-- Derived from R6 and R181 (log 9): with an endless input no run ever waits: any number of steps, of any program, completes,
and so does the driver's loop; a program that reads the keyboard for ever runs for ever. -/
def Obligations.EndlessInputNeverWaits : Prop :=
  ∀ (m : OpcodeMap) (n : Nat) (s : State) (first : List Byte) (tape : Nat), s.input = .endless first tape →
    (∃ t, stepsWith m n s = .next t ∧ t.input = .endless first tape) ∧ SafeRun m n s

/-- Derived from R36: steps read the input in order, one position after another, and depend on the bytes they consumed alone:
with any other input, finite or endless, that has the same bytes at those positions, they do the same. -/
def Obligations.StepsDependOnTheConsumedBytes : Prop :=
  ∀ (m : OpcodeMap) (n : Nat) (s t : State) (j : Input), stepsWith m n s = .next t →
    s.inpos ≤ t.inpos ∧ t.inpos ≤ s.inpos + n ∧
    ((∀ p, s.inpos ≤ p → p < t.inpos → j.byteAt p = s.input.byteAt p) →
      stepsWith m n { s with input := j } = .next { t with input := j })
end

