-- ==== Sys2Proof/Laws/Decode.lean ====
section
/-! SUPPORT. Small laws of the decoder's parts: register indices, the opcode map and its inverse, the unused patterns. -/

namespace Sys2Proof

@[simp] theorem Reg.ofIndex_index (r : Reg) : Reg.ofIndex r.index = r := by cases r <;> rfl

@[simp] theorem Reg.index_ofIndex (i : BitVec 3) : (Reg.ofIndex i).index = i := by
  revert i; decide

/-- A placed field, bit by bit. -/
theorem getLsbD_place {n : Nat} (lo k : Nat) (f : BitVec n) :
    (place lo f).getLsbD k = (decide (k < 16) && decide (lo ≤ k) && f.getLsbD (k - lo)) := by
  simp only [place, BitVec.getLsbD_shiftLeft, BitVec.getLsbD_setWidth]
  by_cases hk : k < 16
  · have : k - lo < 16 := by omega
    by_cases hl : lo ≤ k <;> simp [hk, hl, this]
  · simp [hk]

/-- A placed bit, bit by bit. -/
theorem getLsbD_placeBit (lo k : Nat) (b : Bool) :
    (placeBit lo b).getLsbD k = (decide (k < 16) && decide (lo = k) && b) := by
  rw [placeBit, getLsbD_place]
  by_cases hk : lo = k
  · subst hk; simp
  · by_cases hl : lo ≤ k
    · have : k - lo ≠ 0 := by omega
      simp [hk, this]
    · simp [hk, hl]

@[simp] theorem getElem_place {n : Nat} (lo k : Nat) (f : BitVec n) (hk : k < 16) :
    (place lo f)[k] = (decide (lo ≤ k) && f.getLsbD (k - lo)) := by
  rw [← BitVec.getLsbD_eq_getElem, getLsbD_place, decide_eq_true hk, Bool.true_and]

@[simp] theorem getElem_placeBit (lo k : Nat) (b : Bool) (hk : k < 16) :
    (placeBit lo b)[k] = (decide (lo = k) && b) := by
  rw [← BitVec.getLsbD_eq_getElem, getLsbD_placeBit, decide_eq_true hk, Bool.true_and]

/-- A field read out of a word is the field whose bits the word has there. -/
theorem extractLsb'_eq_of_bits {n : Nat} {w : Word} {lo : Nat} {f : BitVec n}
    (h : ∀ k, k < n → w.getLsbD (lo + k) = f.getLsbD k) : w.extractLsb' lo n = f := by
  apply BitVec.eq_of_getLsbD_eq
  intro k hk
  simp only [BitVec.getLsbD_extractLsb', hk, decide_true, Bool.true_and, h k hk]

theorem Operation.mem_all (op : Operation) : op ∈ Operation.all := by cases op <;> decide

/-- What the inverse of a map finds, the map sends to the value looked for. -/
theorem OpcodeMap.code_of_operationOf {m : OpcodeMap} {v : BitVec 4} {op : Operation}
    (h : m.operationOf v = some op) : m.code op = v := by
  simpa using List.find?_some h

/-- An injective map's inverse finds the operation of each operation's value. -/
theorem OpcodeMap.operationOf_code {m : OpcodeMap} (h : m.wf) (op : Operation) :
    m.operationOf (m.code op) = some op := by
  obtain ⟨op', h'⟩ : ∃ op', m.operationOf (m.code op) = some op' := by
    rw [← Option.isSome_iff_exists, OpcodeMap.operationOf, List.find?_isSome]
    exact ⟨op, op.mem_all, by simp⟩
  rw [h', Option.some_inj]
  exact List.inj_on_of_nodup_map h op'.mem_all op.mem_all (OpcodeMap.code_of_operationOf h')

/-- A value is among the unused patterns exactly when it selects no operation. -/
theorem OpcodeMap.mem_unusedPatterns {m : OpcodeMap} {v : BitVec 4} :
    v ∈ m.unusedPatterns ↔ m.operationOf v = none := by
  have hall : ∀ v : BitVec 4, v ∈ (List.range 16).map (BitVec.ofNat 4) := by decide
  simp only [OpcodeMap.unusedPatterns, List.mem_filter, hall v, true_and, Option.isNone_iff_eq_none]

theorem OpcodeMap.unusedPatterns_nodup (m : OpcodeMap) : m.unusedPatterns.Nodup :=
  List.Nodup.filter _ (by decide)

/-- Fourteen operations leave at least two of the sixteen values unused (R86). -/
theorem OpcodeMap.two_unused (m : OpcodeMap) : 2 ≤ m.unusedPatterns.length := by
  have hsub : (Finset.univ : Finset (BitVec 4)) ⊆
      (Operation.all.map m.code).toFinset ∪ m.unusedPatterns.toFinset := by
    intro v _
    simp only [Finset.mem_union, List.mem_toFinset, OpcodeMap.mem_unusedPatterns]
    rcases h : m.operationOf v with _ | op
    · exact .inr rfl
    · exact .inl (List.mem_map.mpr ⟨op, op.mem_all, OpcodeMap.code_of_operationOf h⟩)
  have hcard := (Finset.card_le_card hsub).trans (Finset.card_union_le _ _)
  have hops := List.toFinset_card_le (Operation.all.map m.code)
  have hun := List.toFinset_card_le m.unusedPatterns
  have h16 : (Finset.univ : Finset (BitVec 4)).card = 16 := by decide
  have h14 : (Operation.all.map m.code).length = 14 := rfl
  omega

/-- The lowest and the highest unused value are two different values, and neither selects an operation. -/
theorem OpcodeMap.unused_low_high (m : OpcodeMap) :
    m.operationOf m.unusedLow = none ∧ m.operationOf m.unusedHigh = none ∧
      m.unusedHigh ≠ m.unusedLow := by
  have h2 := m.two_unused
  have hnd := m.unusedPatterns_nodup
  simp only [← OpcodeMap.mem_unusedPatterns, OpcodeMap.unusedLow, OpcodeMap.unusedHigh]
  generalize m.unusedPatterns = l at h2 hnd
  match l with
  | a :: b :: l =>
    have hne : (a :: b :: l) ≠ [] := by simp
    have hlast : (b :: l).getLast (by simp) ∈ b :: l := List.getLast_mem _
    refine ⟨by simp, ?_, ?_⟩
    · simp only [List.getLast?_eq_some_getLast hne, Option.getD_some]
      exact List.getLast_mem hne
    · simp only [List.getLast?_eq_some_getLast hne, Option.getD_some, List.head?_cons,
        List.getLast_cons (by simp : (b :: l) ≠ [])]
      intro h
      exact (List.nodup_cons.mp hnd).1 (h ▸ hlast)

/-- Under an injective map the fourteen codes leave exactly two values unused (R86). -/
theorem OpcodeMap.unusedPatterns_length {m : OpcodeMap} (h : m.wf) : m.unusedPatterns.length = 2 := by
  have hdisj : Disjoint (Operation.all.map m.code).toFinset m.unusedPatterns.toFinset := by
    rw [Finset.disjoint_left]
    intro v hv hu
    obtain ⟨op, -, rfl⟩ := List.mem_map.mp (List.mem_toFinset.mp hv)
    have := OpcodeMap.mem_unusedPatterns.mp (List.mem_toFinset.mp hu)
    rw [OpcodeMap.operationOf_code h] at this
    cases this
  have hcard := Finset.card_le_univ ((Operation.all.map m.code).toFinset ∪ m.unusedPatterns.toFinset)
  rw [Finset.card_union_of_disjoint hdisj, List.toFinset_card_of_nodup h,
    List.toFinset_card_of_nodup m.unusedPatterns_nodup] at hcard
  have h16 : Fintype.card (BitVec 4) = 16 := by decide
  have h14 : (Operation.all.map m.code).length = 14 := rfl
  have h2 := m.two_unused
  omega

/-- Under an injective map a value that selects no operation is the lowest or the highest unused one. -/
theorem OpcodeMap.unused_eq_low_or_high {m : OpcodeMap} (h : m.wf) {v : BitVec 4}
    (hv : m.operationOf v = none) : v = m.unusedLow ∨ v = m.unusedHigh := by
  rw [← OpcodeMap.mem_unusedPatterns] at hv
  have h2 := OpcodeMap.unusedPatterns_length h
  simp only [OpcodeMap.unusedLow, OpcodeMap.unusedHigh]
  generalize m.unusedPatterns = l at h2 hv
  match l with
  | [a, b] => simpa using hv

end Sys2Proof
end

