-- ==== Sys2Proof/Laws/State.lean ====
section
/-! SUPPORT. One lemma per field per update, all by rfl: what each named operation leaves in each field of the state. -/

namespace Sys2Proof.Machine

variable (s : State) (r : Reg) (a v : Word)

/-! `x[i] <- v`. -/
@[simp] theorem writeReg_x : (s.writeReg r v).x = s.x.set r v := rfl
@[simp] theorem writeReg_pc : (s.writeReg r v).pc = s.pc := rfl
@[simp] theorem writeReg_ir : (s.writeReg r v).ir = s.ir := rfl
@[simp] theorem writeReg_cc : (s.writeReg r v).cc = s.cc := rfl
@[simp] theorem writeReg_halted : (s.writeReg r v).halted = s.halted := rfl
@[simp] theorem writeReg_mem : (s.writeReg r v).mem = s.mem := rfl
@[simp] theorem writeReg_input : (s.writeReg r v).input = s.input := rfl
@[simp] theorem writeReg_inpos : (s.writeReg r v).inpos = s.inpos := rfl
@[simp] theorem writeReg_out : (s.writeReg r v).out = s.out := rfl

/-! `pc <- target`. -/
@[simp] theorem setPc_x : (s.setPc v).x = s.x := rfl
@[simp] theorem setPc_pc : (s.setPc v).pc = v := rfl
@[simp] theorem setPc_ir : (s.setPc v).ir = s.ir := rfl
@[simp] theorem setPc_cc : (s.setPc v).cc = s.cc := rfl
@[simp] theorem setPc_halted : (s.setPc v).halted = s.halted := rfl
@[simp] theorem setPc_mem : (s.setPc v).mem = s.mem := rfl
@[simp] theorem setPc_input : (s.setPc v).input = s.input := rfl
@[simp] theorem setPc_inpos : (s.setPc v).inpos = s.inpos := rfl
@[simp] theorem setPc_out : (s.setPc v).out = s.out := rfl

/-! `MemWrite`. -/
@[simp] theorem memWrite_x : (s.memWrite a v).x = s.x := rfl
@[simp] theorem memWrite_pc : (s.memWrite a v).pc = s.pc := rfl
@[simp] theorem memWrite_ir : (s.memWrite a v).ir = s.ir := rfl
@[simp] theorem memWrite_cc : (s.memWrite a v).cc = s.cc := rfl
@[simp] theorem memWrite_halted : (s.memWrite a v).halted = s.halted := rfl
@[simp] theorem memWrite_mem : (s.memWrite a v).mem = s.mem.write a.toNat v := rfl
@[simp] theorem memWrite_input : (s.memWrite a v).input = s.input := rfl
@[simp] theorem memWrite_inpos : (s.memWrite a v).inpos = s.inpos := rfl
@[simp] theorem memWrite_out : (s.memWrite a v).out = s.out := rfl

/-! `SetCC`. -/
@[simp] theorem setCC_x : (s.setCC v).x = s.x := rfl
@[simp] theorem setCC_pc : (s.setCC v).pc = s.pc := rfl
@[simp] theorem setCC_ir : (s.setCC v).ir = s.ir := rfl
@[simp] theorem setCC_cc : (s.setCC v).cc = ccOf v := rfl
@[simp] theorem setCC_halted : (s.setCC v).halted = s.halted := rfl
@[simp] theorem setCC_mem : (s.setCC v).mem = s.mem := rfl
@[simp] theorem setCC_input : (s.setCC v).input = s.input := rfl
@[simp] theorem setCC_inpos : (s.setCC v).inpos = s.inpos := rfl
@[simp] theorem setCC_out : (s.setCC v).out = s.out := rfl

/-! `x[DR] <- v; SetCC(v)`. -/
@[simp] theorem writeResult_x : (s.writeResult r v).x = s.x.set r v := rfl
@[simp] theorem writeResult_pc : (s.writeResult r v).pc = s.pc := rfl
@[simp] theorem writeResult_ir : (s.writeResult r v).ir = s.ir := rfl
@[simp] theorem writeResult_cc : (s.writeResult r v).cc = ccOf v := rfl
@[simp] theorem writeResult_halted : (s.writeResult r v).halted = s.halted := rfl
@[simp] theorem writeResult_mem : (s.writeResult r v).mem = s.mem := rfl
@[simp] theorem writeResult_input : (s.writeResult r v).input = s.input := rfl
@[simp] theorem writeResult_inpos : (s.writeResult r v).inpos = s.inpos := rfl
@[simp] theorem writeResult_out : (s.writeResult r v).out = s.out := rfl

/-! `halted <- true`. -/
@[simp] theorem halt_x : s.halt.x = s.x := rfl
@[simp] theorem halt_pc : s.halt.pc = s.pc := rfl
@[simp] theorem halt_ir : s.halt.ir = s.ir := rfl
@[simp] theorem halt_cc : s.halt.cc = s.cc := rfl
@[simp] theorem halt_halted : s.halt.halted = true := rfl
@[simp] theorem halt_mem : s.halt.mem = s.mem := rfl
@[simp] theorem halt_input : s.halt.input = s.input := rfl
@[simp] theorem halt_inpos : s.halt.inpos = s.inpos := rfl
@[simp] theorem halt_out : s.halt.out = s.out := rfl

/-! The link. -/
@[simp] theorem link_x : s.link.x = s.x.set .r7 s.pc := rfl
@[simp] theorem link_pc : s.link.pc = s.pc := rfl
@[simp] theorem link_ir : s.link.ir = s.ir := rfl
@[simp] theorem link_cc : s.link.cc = s.cc := rfl
@[simp] theorem link_halted : s.link.halted = s.halted := rfl
@[simp] theorem link_mem : s.link.mem = s.mem := rfl
@[simp] theorem link_input : s.link.input = s.input := rfl
@[simp] theorem link_inpos : s.link.inpos = s.inpos := rfl
@[simp] theorem link_out : s.link.out = s.out := rfl

/-! The fetch. -/
@[simp] theorem fetch_x : s.fetch.x = s.x := rfl
@[simp] theorem fetch_pc : s.fetch.pc = s.pc + 1 := rfl
@[simp] theorem fetch_ir : s.fetch.ir = s.memRead s.pc := rfl
@[simp] theorem fetch_cc : s.fetch.cc = s.cc := rfl
@[simp] theorem fetch_halted : s.fetch.halted = s.halted := rfl
@[simp] theorem fetch_mem : s.fetch.mem = s.mem := rfl
@[simp] theorem fetch_input : s.fetch.input = s.input := rfl
@[simp] theorem fetch_inpos : s.fetch.inpos = s.inpos := rfl
@[simp] theorem fetch_out : s.fetch.out = s.out := rfl

/-! `ConsoleWrite`. -/
@[simp] theorem consoleWrite_x : (s.consoleWrite v).x = s.x := rfl
@[simp] theorem consoleWrite_pc : (s.consoleWrite v).pc = s.pc := rfl
@[simp] theorem consoleWrite_ir : (s.consoleWrite v).ir = s.ir := rfl
@[simp] theorem consoleWrite_cc : (s.consoleWrite v).cc = s.cc := rfl
@[simp] theorem consoleWrite_halted : (s.consoleWrite v).halted = s.halted := rfl
@[simp] theorem consoleWrite_mem : (s.consoleWrite v).mem = s.mem := rfl
@[simp] theorem consoleWrite_input : (s.consoleWrite v).input = s.input := rfl
@[simp] theorem consoleWrite_inpos : (s.consoleWrite v).inpos = s.inpos := rfl
@[simp] theorem consoleWrite_out : (s.consoleWrite v).out = s.out ++ [v] := rfl

end Sys2Proof.Machine
end

