-- ==== Sys2Proof/Laws/Memory.lean ====
section
/-! SUPPORT. The laws of the register file and of memory: reading back a write, leaving every other place alone, and keeping
the canonical form. -/

namespace Sys2Proof.Machine

/-! Registers. -/

theorem Regs.get_set (x : Regs) (r q : Reg) (v : Word) :
    (x.set r v).get q = if q = r then v else x.get q := by
  cases r <;> cases q <;> rfl

@[simp] theorem Regs.get_set_same (x : Regs) (r : Reg) (v : Word) : (x.set r v).get r = v := by
  simp [Regs.get_set]

theorem Regs.get_set_other (x : Regs) {r q : Reg} (v : Word) (h : q ≠ r) :
    (x.set r v).get q = x.get q := by
  simp [Regs.get_set, h]

/-! One memory operation at a time. -/

theorem Memory.read_erase (m : Memory) (a b : Nat) :
    (m.erase a).read b = if b = a then Memory.unlisted else m.read b := by
  induction m with
  | nil => simp [Memory.erase, Memory.read]
  | cons c m ih =>
    obtain ⟨k, w⟩ := c
    simp only [Memory.erase, List.filter_cons] at ih ⊢
    by_cases hk : k = a
    · subst hk
      simp only [bne_self_eq_false, Bool.false_eq_true, if_false, ih, Memory.read]
      by_cases hb : b = k <;> simp [hb, eq_comm]
    · simp only [bne_iff_ne, ne_eq, hk, not_false_eq_true, if_true, Memory.read, ih]
      by_cases hb : k = b
      · subst hb; simp [hk]
      · simp [hb]

theorem Memory.read_insert (m : Memory) (a b : Nat) (v : Word) (h : ∀ c ∈ m, c.1 ≠ a) :
    (m.insert a v).read b = if b = a then v else m.read b := by
  induction m with
  | nil => simp [Memory.insert, Memory.read, eq_comm (a := a)]
  | cons c m ih =>
    obtain ⟨k, w⟩ := c
    have hk : k ≠ a := h (k, w) (by simp)
    have ih := ih (fun c hc => h c (by simp [hc]))
    simp only [Memory.insert]
    split
    · simp [Memory.read, eq_comm (a := a)]
    · simp only [Memory.read, ih]
      by_cases hb : k = b
      · subst hb; simp [hk]
      · simp [hb]

theorem Memory.erase_ne (m : Memory) (a : Nat) : ∀ c ∈ m.erase a, c.1 ≠ a := by
  simp [Memory.erase]

/-- What a write does to every cell. -/
theorem Memory.read_write (m : Memory) (a b : Nat) (v : Word) :
    (m.write a v).read b = if b = a then v else m.read b := by
  simp only [Memory.write]
  split
  · subst v; exact Memory.read_erase m a b
  · rw [Memory.read_insert _ _ _ _ (m.erase_ne a), Memory.read_erase]
    by_cases hb : b = a <;> simp [hb]

@[simp] theorem memRead_memWrite (s : State) (a b v : Word) :
    (s.memWrite a v).memRead b = if b = a then v else s.memRead b := by
  simp [State.memRead, Memory.read_write, BitVec.toNat_inj]

/-! The canonical form. -/

theorem Memory.wf_erase {m : Memory} (h : m.wf) (a : Nat) : (m.erase a).wf :=
  ⟨h.1.filter _, fun c hc => h.2 c (List.mem_of_mem_filter hc)⟩

theorem Memory.mem_insert {m : Memory} {a : Nat} {v : Word} {c : Nat × Word} :
    c ∈ m.insert a v → c = (a, v) ∨ c ∈ m := by
  induction m with
  | nil => simp [Memory.insert]
  | cons d m ih =>
    simp only [Memory.insert]
    split
    · simp
    · simp only [List.mem_cons]
      rintro (h | h)
      · exact .inr (.inl h)
      · exact (ih h).imp_right .inr

theorem Memory.wf_insert {m : Memory} (h : m.wf) {a : Nat} {v : Word} (ha : a < 65536)
    (hv : v ≠ Memory.unlisted) (hm : ∀ c ∈ m, c.1 ≠ a) : (m.insert a v).wf := by
  refine ⟨?_, fun c hc => ?_⟩
  · induction m with
    | nil => simp [Memory.insert]
    | cons d m ih =>
      have hd := List.pairwise_cons.mp h.1
      have hda : d.1 ≠ a := hm d (by simp)
      simp only [Memory.insert]
      split
      · rename_i hlt
        refine List.pairwise_cons.mpr ⟨fun c hc => ?_, h.1⟩
        rcases List.mem_cons.mp hc with rfl | hc
        · exact hlt
        · exact hlt.trans (hd.1 c hc)
      · rename_i hlt
        refine List.pairwise_cons.mpr ⟨fun c hc => ?_, ?_⟩
        · rcases Memory.mem_insert hc with rfl | hc
          · show d.1 < a; omega
          · exact hd.1 c hc
        · exact ih ⟨hd.2, fun c hc => h.2 c (by simp [hc])⟩ (fun c hc => hm c (by simp [hc]))
  · rcases Memory.mem_insert hc with rfl | hc
    · exact ⟨ha, hv⟩
    · exact h.2 c hc

/-- A store keeps the canonical form. -/
theorem Memory.wf_write {m : Memory} (h : m.wf) {a : Nat} (ha : a < 65536) (v : Word) :
    (m.write a v).wf := by
  simp only [Memory.write]
  split
  · exact Memory.wf_erase h a
  · rename_i hv
    exact Memory.wf_insert (Memory.wf_erase h a) ha hv (m.erase_ne a)

/-- The store primitive keeps the canonical form, at every address. -/
theorem memWrite_wf {s : State} (h : s.mem.wf) (a v : Word) : (s.memWrite a v).mem.wf :=
  Memory.wf_write h a.isLt v

theorem reset_mem_wf : State.reset.mem.wf := by simp [State.reset, Memory.wf]

/-! The read of one place after each operation that does not store there. -/

@[simp] theorem memRead_writeReg (s : State) (r : Reg) (v a : Word) :
    (s.writeReg r v).memRead a = s.memRead a := rfl
@[simp] theorem memRead_setPc (s : State) (v a : Word) : (s.setPc v).memRead a = s.memRead a := rfl
@[simp] theorem memRead_setCC (s : State) (v a : Word) : (s.setCC v).memRead a = s.memRead a := rfl
@[simp] theorem memRead_writeResult (s : State) (r : Reg) (v a : Word) :
    (s.writeResult r v).memRead a = s.memRead a := rfl
@[simp] theorem memRead_halt (s : State) (a : Word) : s.halt.memRead a = s.memRead a := rfl
@[simp] theorem memRead_link (s : State) (a : Word) : s.link.memRead a = s.memRead a := rfl
@[simp] theorem memRead_fetch (s : State) (a : Word) : s.fetch.memRead a = s.memRead a := rfl
@[simp] theorem memRead_consoleWrite (s : State) (v a : Word) :
    (s.consoleWrite v).memRead a = s.memRead a := rfl

@[simp] theorem readReg_writeReg (s : State) (r q : Reg) (v : Word) :
    (s.writeReg r v).readReg q = if q = r then v else s.readReg q := Regs.get_set ..
@[simp] theorem readReg_writeResult (s : State) (r q : Reg) (v : Word) :
    (s.writeResult r v).readReg q = if q = r then v else s.readReg q := Regs.get_set ..
@[simp] theorem readReg_link (s : State) (q : Reg) :
    s.link.readReg q = if q = .r7 then s.pc else s.readReg q := Regs.get_set ..
@[simp] theorem readReg_setPc (s : State) (v : Word) (q : Reg) :
    (s.setPc v).readReg q = s.readReg q := rfl
@[simp] theorem readReg_memWrite (s : State) (a v : Word) (q : Reg) :
    (s.memWrite a v).readReg q = s.readReg q := rfl
@[simp] theorem readReg_halt (s : State) (q : Reg) : s.halt.readReg q = s.readReg q := rfl
@[simp] theorem readReg_fetch (s : State) (q : Reg) : s.fetch.readReg q = s.readReg q := rfl

end Sys2Proof.Machine
end

