-- ==== Sys2Proof/Laws/Devices.lean ====
section
/-! SUPPORT. What the console's operations and the reconciliation can do, said once. -/

namespace Sys2Proof.Machine

/-! The console's input, finite or endless. -/

@[simp] theorem byteAt_finite (bytes : List Byte) (p : Nat) : (Input.finite bytes).byteAt p = bytes[p]? := rfl
@[simp] theorem byteAt_endless (first : List Byte) (tape p : Nat) :
    (Input.endless first tape).byteAt p = some (first[p]?.getD (Config.tapeByte tape p)) := rfl
@[simp] theorem reaches_finite (bytes : List Byte) (p : Nat) :
    (Input.finite bytes).reaches p = decide (p ≤ bytes.length) := rfl
@[simp] theorem reaches_endless (first : List Byte) (tape p : Nat) :
    (Input.endless first tape).reaches p = true := rfl
@[simp] theorem append_finite (bytes more : List Byte) :
    (Input.finite bytes).append more = .finite (bytes ++ more) := rfl
@[simp] theorem append_endless (first more : List Byte) (tape : Nat) :
    (Input.endless first tape).append more = .endless first tape := rfl

/-- There is a byte at a position exactly when the input reaches past it. -/
theorem byteAt_isSome (i : Input) (p : Nat) : (i.byteAt p).isSome = i.reaches (p + 1) := by
  cases i with
  | finite bytes =>
    by_cases h : p < bytes.length <;> simp [h]
  | endless first tape => rfl

/-- No byte stands at a position exactly when the input is finite and ends there or before. -/
theorem byteAt_none {i : Input} {p : Nat} :
    i.byteAt p = none ↔ ∃ bytes, i = .finite bytes ∧ bytes.length ≤ p := by
  cases i <;> simp

/-- More input leaves the bytes that were there. -/
theorem byteAt_append {i : Input} {p : Nat} {c : Byte} (more : List Byte) (h : i.byteAt p = some c) :
    (i.append more).byteAt p = some c := by
  cases i with
  | finite bytes =>
    have hp : p < bytes.length := (List.getElem?_eq_some_iff.mp h).1
    simpa [List.getElem?_append_left hp] using h
  | endless first tape => exact h

/-- A console read that answers took the byte at the position and advanced it; nothing else changed. -/
theorem consoleRead_some {s t : State} {c : Byte} (h : s.consoleRead = some (c, t)) :
    s.input.byteAt s.inpos = some c ∧ t = { s with inpos := s.inpos + 1 } := by
  unfold State.consoleRead at h
  split at h
  · rename_i d hd
    obtain ⟨rfl, rfl⟩ := Prod.mk.inj (Option.some.inj h)
    exact ⟨hd, rfl⟩
  · cases h

/-- A console read has nothing to answer exactly when the input is exhausted. -/
theorem consoleRead_none {s : State} : s.consoleRead = none ↔ s.input.byteAt s.inpos = none := by
  unfold State.consoleRead
  split <;> simp [*]

/-! The drain, field by field. -/

@[simp] theorem drain_x (s : State) : s.drain.x = s.x := by unfold State.drain; split <;> rfl
@[simp] theorem drain_pc (s : State) : s.drain.pc = s.pc := by unfold State.drain; split <;> rfl
@[simp] theorem drain_ir (s : State) : s.drain.ir = s.ir := by unfold State.drain; split <;> rfl
@[simp] theorem drain_cc (s : State) : s.drain.cc = s.cc := by unfold State.drain; split <;> rfl
@[simp] theorem drain_halted (s : State) : s.drain.halted = s.halted := by
  unfold State.drain; split <;> rfl
@[simp] theorem drain_input (s : State) : s.drain.input = s.input := by
  unfold State.drain; split <;> rfl
@[simp] theorem drain_inpos (s : State) : s.drain.inpos = s.inpos := by
  unfold State.drain; split <;> rfl
theorem drain_out (s : State) :
    s.drain.out = if s.memRead ddrAddr = 0 then s.out else s.out ++ [s.memRead ddrAddr] := by
  unfold State.drain; split <;> rfl
theorem drain_memRead (s : State) (a : Word) :
    s.drain.memRead a = if a = ddrAddr then 0 else s.memRead a := by
  unfold State.drain
  split
  · rename_i h
    by_cases ha : a = ddrAddr <;> simp [ha, h]
  · simp

/-! The reconciliation, field by field. -/

@[simp] theorem reconcile_x (s : State) : s.reconcile.x = s.x := by simp [State.reconcile]
@[simp] theorem reconcile_pc (s : State) : s.reconcile.pc = s.pc := by simp [State.reconcile]
@[simp] theorem reconcile_ir (s : State) : s.reconcile.ir = s.ir := by simp [State.reconcile]
@[simp] theorem reconcile_cc (s : State) : s.reconcile.cc = s.cc := by simp [State.reconcile]
@[simp] theorem reconcile_halted (s : State) : s.reconcile.halted = s.halted := by
  simp [State.reconcile]
@[simp] theorem reconcile_input (s : State) : s.reconcile.input = s.input := by
  simp [State.reconcile]
@[simp] theorem reconcile_inpos (s : State) : s.reconcile.inpos = s.inpos := by
  simp [State.reconcile]
@[simp] theorem reconcile_readReg (s : State) (r : Reg) : s.reconcile.readReg r = s.readReg r := by
  simp [State.readReg]
theorem reconcile_out (s : State) :
    s.reconcile.out = if s.memRead ddrAddr = 0 then s.out else s.out ++ [s.memRead ddrAddr] := by
  simp [State.reconcile, drain_out]
theorem reconcile_memRead (s : State) (a : Word) :
    s.reconcile.memRead a =
      if a = dsrAddr then readyValue else if a = kbsrAddr then readyValue
      else if a = ddrAddr then 0 else s.memRead a := by
  simp [State.reconcile, drain_memRead]

/-- The reconciliation keeps memory's canonical form. -/
theorem reconcile_wf {s : State} (h : s.mem.wf) : s.reconcile.mem.wf := by
  have hd : s.drain.mem.wf := by
    unfold State.drain
    split
    · exact h
    · exact memWrite_wf (s := s.consoleWrite _) h _ _
  exact memWrite_wf (memWrite_wf hd _ _) _ _

/-- What the end of a step can answer. -/
theorem finish_next {o : Result} {t : State} (h : finish o = .next t) :
    ∃ u, o = .next u ∧ t = u.reconcile := by
  cases o with
  | next u => exact ⟨u, rfl, by simpa [finish, eq_comm] using h⟩
  | fault r => simp [finish] at h
  | refused r => simp [finish] at h

/-- A step that completes is a fetch, one instruction that completes, and the reconciliation (R110). -/
theorem stepWith_next {m : OpcodeMap} {s t : State} (h : stepWith m s = .next t) :
    ∃ u, exec (decodeWith m s.fetch.ir) s.fetch = .next u ∧ t = u.reconcile :=
  finish_next h

end Sys2Proof.Machine
end

