-- ==== Sys2Proof/Laws/PerInstr.lean ====
section
/-! SUPPORT. The per-instruction family of LAWS.json: the word the encoder writes for an instruction is in the instruction's row of
the opcode table (its mask and pattern). -/

namespace Sys2Proof.Laws.EncodesInItsRow

/-- The encoder's word is in the instruction's row of spec/opcode_table.json. -/
def Statement (i : Instr) : Prop := i.row.holds (encode i)

/-- A word is in a row when it is bit by bit. -/
theorem of_bits {i : Instr}
    (h : ∀ k, k < 16 → (encode i &&& i.row.mask).getLsbD k = i.row.pattern.getLsbD k) : Statement i :=
  BitVec.eq_of_getLsbD_eq h

/-- Every instruction's word is in its row: bit by bit, constructor by constructor. -/
theorem holds (i : Instr) : Statement i := by
  rcases i
  case unused8 => unfold Statement; decide
  case unused13 => unfold Statement; decide
  all_goals
    refine of_bits fun k hk => ?_
    interval_cases k <;> simp [encode, encodeWith, Instr.row, opcodeMap, BitVec.getLsbD_of_ge]

theorem addReg (dr sr1 sr2 : Reg) : Statement (.addReg dr sr1 sr2) := holds _
theorem addImm (dr sr1 : Reg) (imm5 : BitVec 5) : Statement (.addImm dr sr1 imm5) := holds _
theorem andReg (dr sr1 sr2 : Reg) : Statement (.andReg dr sr1 sr2) := holds _
theorem andImm (dr sr1 : Reg) (imm5 : BitVec 5) : Statement (.andImm dr sr1 imm5) := holds _
theorem not (dr sr1 : Reg) : Statement (.not dr sr1) := holds _
theorem lea (dr : Reg) (offset9 : BitVec 9) : Statement (.lea dr offset9) := holds _
theorem ld (dr : Reg) (offset9 : BitVec 9) : Statement (.ld dr offset9) := holds _
theorem ldr (dr sr1 : Reg) (offset6 : BitVec 6) : Statement (.ldr dr sr1 offset6) := holds _
theorem ldi (dr : Reg) (offset9 : BitVec 9) : Statement (.ldi dr offset9) := holds _
theorem st (sr : Reg) (offset9 : BitVec 9) : Statement (.st sr offset9) := holds _
theorem str (sr sr1 : Reg) (offset6 : BitVec 6) : Statement (.str sr sr1 offset6) := holds _
theorem sti (sr : Reg) (offset9 : BitVec 9) : Statement (.sti sr offset9) := holds _
theorem br (n z p : Bool) (offset9 : BitVec 9) : Statement (.br n z p offset9) := holds _
theorem jmp (sr1 : Reg) : Statement (.jmp sr1) := holds _
theorem jsr (offset11 : BitVec 11) : Statement (.jsr offset11) := holds _
theorem jsrr (sr1 : Reg) : Statement (.jsrr sr1) := holds _
theorem trap (trapvect8 : BitVec 8) : Statement (.trap trapvect8) := holds _
theorem unused8 : Statement .unused8 := holds _
theorem unused13 : Statement .unused13 := holds _

end Sys2Proof.Laws.EncodesInItsRow
end

