-- ==== Sys2Proof/Tests/Slice0.lean ====
section
/-! SUPPORT. The model's own tests. Expected values are the spec's: the V and S entries of 95_test_vectors.md, named in each
comment. First the well-formedness smoke, then decoding, then one step at a time, then a witness for the hypotheses of
every statement that has some. -/

namespace Sys2Proof.Tests

open Machine

/-- A state at a pc, with registers and cells. -/
def at_ (pc : Word) (x : Regs) (cells : List (Word × Word)) : State :=
  cells.foldl (fun s c => s.memWrite c.1 c.2) { State.reset with pc := pc, x := x }

/-- All registers zero. -/
def zeros : Regs := State.reset.x

/-- A result is a next state that passes a check. -/
def after (o : Result) (check : State → Bool) : Bool :=
  match o with
  | .next t => check t
  | .fault _ => false
  | .refused _ => false

/-- A result is the wait for input. -/
def waits (o : Result) : Bool :=
  match o with
  | .next _ => false
  | .fault .awaitingInput => true
  | .refused _ => false

/-! Well-formedness. No instruction is ill formed (R87), so the checks are the opcode map's, memory's and the state's. -/

theorem test_map_wf : opcodeMap.wf := by decide
theorem test_map_two_operations_one_code : ¬ ({ opcodeMap with lea := 1 } : OpcodeMap).wf := by decide
theorem test_memory_wf : Memory.wf [(0, 1), (65535, 2)] := by decide
theorem test_memory_unsorted : ¬ Memory.wf [(2, 1), (1, 1)] := by decide
theorem test_memory_repeated : ¬ Memory.wf [(1, 1), (1, 2)] := by decide
theorem test_memory_beyond_the_end : ¬ Memory.wf [(65536, 1)] := by decide
theorem test_memory_lists_the_default : ¬ Memory.wf [(1, 0)] := by decide
theorem test_state_position_beyond_input : ¬ ({ State.reset with inpos := 1 } : State).wf := by decide
theorem test_state_position_in_endless_input :
    ({ State.reset with input := .endless [] 3, inpos := 1 } : State).wf := by decide
theorem test_write_sorts_and_removes :
    (Memory.write (Memory.write (Memory.write [] 9 5) 3 4) 9 0) = [(3, 4)] := by decide

/-! Decoding, each word written out from R82's pattern. -/

theorem test_decode_add_reg : decode 0b0001_010_011_0_00_100 = .addReg .r2 .r3 .r4 := by decide
theorem test_decode_add_imm : decode 0b0001_000_000_1_11111 = .addImm .r0 .r0 0b11111 := by decide
theorem test_decode_and_reg : decode 0b0101_001_010_0_00_011 = .andReg .r1 .r2 .r3 := by decide
theorem test_decode_and_imm : decode 0b0101_001_010_1_10000 = .andImm .r1 .r2 0b10000 := by decide
theorem test_decode_not : decode 0b1001_001_010_111111 = .not .r1 .r2 := by decide
theorem test_decode_lea : decode 0b1110_001_000001001 = .lea .r1 9 := by decide
theorem test_decode_ld : decode 0b0010_010_000000110 = .ld .r2 6 := by decide
theorem test_decode_ldr : decode 0b0110_010_011_100000 = .ldr .r2 .r3 0b100000 := by decide
theorem test_decode_ldi : decode 0b1010_000_000000011 = .ldi .r0 3 := by decide
theorem test_decode_st : decode 0b0011_011_000000101 = .st .r3 5 := by decide
theorem test_decode_str : decode 0b0111_001_010_111111 = .str .r1 .r2 0b111111 := by decide
theorem test_decode_sti : decode 0b1011_001_000000100 = .sti .r1 4 := by decide
theorem test_decode_br : decode 0b0000_100_111111110 = .br true false false 0b111111110 := by decide
theorem test_decode_jmp : decode 0b1100_111_010_111111 = .jmp .r2 := by decide
theorem test_decode_jsr : decode 0b0100_1_10000000000 = .jsr 0b10000000000 := by decide
theorem test_decode_jsrr : decode 0b0100_0_11_010_111111 = .jsrr .r2 := by decide
theorem test_decode_trap : decode 0b1111_1111_00100101 = .trap 0x25 := by decide
theorem test_decode_unused8 : decode 0b1000_111111111111 = .unused8 := by decide
theorem test_decode_unused13 : decode 0b1101_000100100011 = .unused13 := by decide
theorem test_encode_not : encode (.not .r0 .r0) = 0x903F := by decide
theorem test_encode_jsrr : encode (.jsrr .r7) = 0x41C0 := by decide
theorem test_table_word : decodeTableWord 16 0xC1C0 = some (.jmp .r7) := by decide
theorem test_table_word_too_wide : decodeTableWord 16 0x10000 = none := by decide

/-! Extensions and the condition code (V0). -/

theorem test_sext5 : sext 0b10000#5 = 0xFFF0 ∧ sext 0b01111#5 = 0x000F := by decide
theorem test_sext6 : sext 0b100000#6 = 0xFFE0 ∧ sext 0b011111#6 = 0x001F := by decide
theorem test_sext9 : sext 0x1FD#9 = 0xFFFD ∧ sext 0x0FF#9 = 0x00FF := by decide
theorem test_sext11 : sext 0x400#11 = 0xFC00 ∧ sext 0x3FF#11 = 0x03FF := by decide
theorem test_zext8 : zext 0xFF#8 = (0x00FF : Word) := by decide
theorem test_cc : ccOf 0 = .zero ∧ ccOf 0x7FFF = .positive ∧ ccOf 0x8000 = .negative := by decide

/-! One step. -/

/-- S2, V1.1. -/
theorem test_add_imm_minus_one :
    after (step (at_ 0x3000 zeros [(0x3000, 0x103F)])) (fun t => t.readReg .r0 == 0xFFFF && t.cc == .negative && t.pc == 0x3001 && t.ir == 0x103F) = true := by decide

/-- V1.9. -/
theorem test_add_imm_least :
    after (step (at_ 0x3000 ⟨0, 0, 0, 0, 0, 0, 0x10, 0⟩ [(0x3000, 0x1BB0)])) (fun t => t.readReg .r5 == 0 && t.cc == .zero && t.readReg .r6 == 0x10) = true := by decide

/-- V1.4. -/
theorem test_add_reg_source_is_destination :
    after (step (at_ 0x3000 ⟨0, 0x4000, 0, 0, 0, 0, 0, 0⟩ [(0x3000, 0x1241)])) (fun t => t.readReg .r1 == 0x8000 && t.cc == .negative) = true := by decide

/-- V1.3. -/
theorem test_add_reg_ignored_bits :
    after (step (at_ 0x3000 ⟨0, 0, 0, 0x1234, 0x0101, 0, 0, 0⟩ [(0x3000, 0x14DC)])) (fun t => t.readReg .r2 == 0x1335 && t.cc == .positive) = true := by decide

/-- V2.2. -/
theorem test_and_reg :
    after (step (at_ 0x3000 ⟨0, 0, 0xF0F0, 0xFF00, 0, 0, 0, 0⟩ [(0x3000, 0x5283)])) (fun t => t.readReg .r1 == 0xF000 && t.cc == .negative) = true := by decide

/-- V2.5. -/
theorem test_and_imm_sign_extends :
    after (step (at_ 0x3000 ⟨0, 0, 0x00FF, 0, 0, 0, 0, 0⟩ [(0x3000, 0x52B0)])) (fun t => t.readReg .r1 == 0x00F0 && t.cc == .positive) = true := by decide

/-- V3.4. -/
theorem test_not_ignored_bits :
    after (step (at_ 0x3000 ⟨0, 0, 0x8000, 0, 0, 0, 0, 0⟩ [(0x3000, 0x9280)])) (fun t => t.readReg .r1 == 0x7FFF && t.cc == .positive) = true := by decide

/-- V4.4. -/
theorem test_lea_wraps_below_zero :
    after (step (at_ 0x0010 zeros [(0x0010, 0xE300)])) (fun t => t.readReg .r1 == 0xFF11 && t.cc == .negative && t.pc == 0x0011) = true := by decide

/-- V4.5. -/
theorem test_lea_pc_wraps_first :
    after (step (at_ 0xFFFF zeros [(0xFFFF, 0xE200)])) (fun t => t.readReg .r1 == 0 && t.cc == .zero && t.pc == 0) = true := by decide

/-- V5.2. -/
theorem test_ld_own_word :
    after (step (at_ 0x3000 zeros [(0x3000, 0x25FF)])) (fun t => t.readReg .r2 == 0x25FF && t.cc == .positive) = true := by decide

/-- V5.4. -/
theorem test_ld_of_kbdr_is_plain :
    after (step { at_ 0xFE00 zeros [(0xFE00, 0x2001), (0xFE02, 0x1234)] with input := .finite [0x41] }) (fun t => t.readReg .r0 == 0x1234 && t.inpos == 0) = true := by decide

/-- V6.2. -/
theorem test_ldr_base_overwritten_after_use :
    after (step (at_ 0x3000 ⟨0, 0x4000, 0, 0, 0, 0, 0, 0⟩ [(0x3000, 0x6240), (0x4000, 0x8000)])) (fun t => t.readReg .r1 == 0x8000 && t.cc == .negative) = true := by decide

/-- V6.4. -/
theorem test_ldr_wraps :
    after (step (at_ 0x3000 ⟨0, 0, 0, 0xFFF0, 0, 0, 0, 0⟩ [(0x3000, 0x64DF), (0x000F, 0xBEEF)])) (fun t => t.readReg .r2 == 0xBEEF && t.cc == .negative) = true := by decide

/-- V7.4. -/
theorem test_ldi_keyboard_zero_extends :
    after (step { at_ 0x3000 zeros [(0x3000, 0xA003), (0x3004, 0xFE02), (0xFE02, 0xBEEF)] with input := .finite [0xFF] }) (fun t => t.readReg .r0 == 0x00FF && t.cc == .positive && t.inpos == 1 && t.memRead 0xFE02 == 0xBEEF) = true := by decide

/-- V7.1's load from an input that never ends (R6): its first byte arrives, and there is more. -/
theorem test_ldi_keyboard_endless :
    after (step { at_ 0x3000 zeros [(0x3000, 0xA003), (0x3004, 0xFE02)] with input := .endless [0x41] 0 }) (fun t => t.readReg .r0 == 0x0041 && t.inpos == 1 && decide t.hasInput) = true := by decide

/-- V7.5. -/
theorem test_ldi_pointer_cell_at_kbdr :
    after (step { at_ 0xFE00 zeros [(0xFE00, 0xA001), (0xFE02, 0x4000), (0x4000, 7)] with input := .finite [0x41] }) (fun t => t.readReg .r0 == 7 && t.inpos == 0) = true := by decide

/-- V8.3. -/
theorem test_st_overwrites_itself :
    after (step (at_ 0x3000 ⟨0xAAAA, 0, 0, 0, 0, 0, 0, 0⟩ [(0x3000, 0x31FF)])) (fun t => t.memRead 0x3000 == 0xAAAA && t.ir == 0x31FF && t.pc == 0x3001) = true := by decide

/-- V8.4. -/
theorem test_st_to_mcr_does_not_halt :
    after (step (at_ 0xFFF8 ⟨0, 0, 0, 0x1234, 0, 0, 0, 0⟩ [(0xFFF8, 0x3605)])) (fun t => t.memRead 0xFFFE == 0x1234 && !t.halted && t.pc == 0xFFF9) = true := by decide

/-- V9.1, S6. -/
theorem test_str_prints :
    after (step (at_ 0x3000 ⟨0x48, 0, 0xFE06, 0, 0, 0, 0, 0⟩ [(0x3000, 0x7080)])) (fun t => t.out == [0x48] && t.memRead 0xFE06 == 0) = true := by decide

/-- V9.2. -/
theorem test_str_base_is_source :
    after (step (at_ 0x3000 ⟨0, 0x4000, 0, 0, 0, 0, 0, 0⟩ [(0x3000, 0x7240)])) (fun t => t.memRead 0x4000 == 0x4000) = true := by decide

/-- V10.2. -/
theorem test_sti_halts_whatever_the_value :
    after (step (at_ 0x3007 ⟨0x8000, 0, 0, 0, 0, 0, 0, 0⟩ [(0x3007, 0xB000), (0x3008, 0xFFFE)])) (fun t => t.halted && t.memRead 0xFFFE == 0x8000 && t.pc == 0x3008) = true := by decide

/-- V10.10. -/
theorem test_sti_pointer_cell_at_mcr :
    after (step (at_ 0xFFF9 ⟨0, 5, 0, 0, 0, 0, 0, 0⟩ [(0xFFF9, 0xB204), (0xFFFE, 0x4000)])) (fun t => t.memRead 0x4000 == 5 && t.memRead 0xFFFE == 0x4000 && !t.halted) = true := by decide

/-- V11.3, S7. -/
theorem test_br_taken :
    after (step { at_ 0x3005 zeros [(0x3005, 0x03FD)] with cc := .positive }) (fun t => t.pc == 0x3003 && t.cc == .positive) = true := by decide

/-- V11.1, S7. -/
theorem test_br_not_taken :
    after (step { at_ 0x3005 zeros [(0x3005, 0x03FD)] with cc := .negative }) (fun t => t.pc == 0x3006 && t.cc == .negative) = true := by decide

/-- V12.2. -/
theorem test_jmp_ignored_bits :
    after (step (at_ 0x3000 ⟨0, 0, 0xFE00, 0, 0, 0, 0, 0⟩ [(0x3000, 0xCEBF)])) (fun t => t.pc == 0xFE00 && t.readReg .r7 == 0) = true := by decide

/-- V13.3. -/
theorem test_jsr_wraps :
    after (step (at_ 0xFFFF zeros [(0xFFFF, 0x4BFF)])) (fun t => t.readReg .r7 == 0 && t.pc == 0x03FF) = true := by decide

/-- V13.4. -/
theorem test_jsr_self :
    after (step (at_ 0x3000 zeros [(0x3000, 0x4FFF)])) (fun t => t.readReg .r7 == 0x3001 && t.pc == 0x3000) = true := by decide

/-- V13.6. -/
theorem test_jsrr_ignored_bits :
    after (step (at_ 0x3001 ⟨0, 0, 0x4000, 0, 0, 0, 0, 0⟩ [(0x3001, 0x46BF)])) (fun t => t.readReg .r7 == 0x3002 && t.pc == 0x4000) = true := by decide

/-- V13.7. -/
theorem test_jsrr_through_r7_falls_through :
    after (step (at_ 0x3001 ⟨0, 0, 0, 0, 0, 0, 0, 0x5000⟩ [(0x3001, 0x41C0)])) (fun t => t.readReg .r7 == 0x3002 && t.pc == 0x3002) = true := by decide

/-- V14.4. -/
theorem test_trap_ignored_bits :
    after (step (at_ 0x3003 zeros [(0x3003, 0xFF25), (0x0025, 0x0200)])) (fun t => t.readReg .r7 == 0x3004 && t.pc == 0x0200 && t.cc == .zero) = true := by decide

/-- V14.5. -/
theorem test_trap_vector_zero_extended :
    after (step (at_ 0x3000 zeros [(0x3000, 0xF080), (0x0080, 0x1234), (0xFF80, 0x5678)])) (fun t => t.readReg .r7 == 0x3001 && t.pc == 0x1234) = true := by decide

/-- V15.4. -/
theorem test_unused13_drains :
    after (step (at_ 0x3000 zeros [(0x3000, 0xDFFF), (0xFE06, 0x58)])) (fun t => t.pc == 0x3001 && t.out == [0x58] && t.memRead 0xFE06 == 0) = true := by decide

/-- V15.2, S8. -/
theorem test_unused8 :
    after (step (at_ 0x3000 zeros [(0x3000, 0x8000)])) (fun t => t.pc == 0x3001 && t.mem == [(0x3000, 0x8000), (0xFE00, 0x8000), (0xFE04, 0x8000)]) = true := by decide

/-- The word placed by the host's function is the one that runs. -/
theorem test_fetch_word :
    after (step (State.reset.withFetchWord 16 0x103F)) (fun t => t.readReg .r0 == 0xFFFF) = true := by decide

/-- V16.3: the device byte is the low byte by default (D7). -/
theorem test_device_byte :
    after (step (at_ 0x3000 zeros [(0xFE06, 0x8041)])) (fun t => t.deviceBytes lowByte == [0x41]) = true := by
  decide

/-! Witnesses: for each statement with hypotheses, a concrete state and operands that meet them. -/

/-- A result that passes a check is a next state. -/
theorem next_of_after {o : Result} {check : State → Bool} (h : after o check = true) :
    ∃ t, o = .next t ∧ check t = true := by
  cases o with
  | next t => exact ⟨t, rfl, h⟩
  | fault r => cases h
  | refused r => cases h

/-- A result that waits is the fault of that name. -/
theorem fault_of_waits {o : Result} (h : waits o = true) : o = .fault .awaitingInput := by
  cases o with
  | next t => cases h
  | fault r => cases r; rfl
  | refused r => cases h

/-- A keyboard LDI with a byte left (S4). -/
def keyboard : State := { at_ 0x3000 zeros [(0x3000, 0xA003), (0x3004, 0xFE02)] with input := .finite [0x41] }

/-- The same with no byte left (V7.9). -/
def exhausted : State := at_ 0x3000 zeros [(0x3000, 0xA003), (0x3004, 0xFE02)]

/-- An ST at KBSR's own address, reaching a chosen device cell with a chosen value (V8.5 to V8.7). -/
def storesFrom (pc : Word) (word value : Word) : State :=
  at_ pc ⟨0, 0, 0, value, 0, 0, 0, 0⟩ [(pc, word)]

theorem witness_ExtensionsKeepTheField : 0 < 5 ∧ 5 ≤ 16 ∧ 0 < 16 ∧ 16 ≤ 16 := by decide

theorem witness_CanonicalMemoryIsUnique :
    Memory.wf [(0, 1), (65535, 2)] ∧ Memory.wf (Memory.write [(65535, 2)] 0 1) ∧
      ∀ a : Word, Memory.read [(0, 1), (65535, 2)] a.toNat = (Memory.write [(65535, 2)] 0 1).read a.toNat :=
  ⟨by decide, by decide, fun _ => rfl⟩

theorem witness_DecodeOfEncode : opcodeMap.wf ∧ (Instr.addImm .r7 .r0 0b10000).wf = true := by decide

theorem witness_EveryWordHasOneRow :
    (Instr.addImm .r3 .r4 0).row.holds 0x103F ∧
      (opcodeField 0x103F = opcodeField 0x17E0 ∧ immFlag 0x103F = immFlag 0x17E0 ∧
        jsrFlag 0x103F = jsrFlag 0x17E0) := by decide

theorem witness_IgnoredBitsDoNotMatter : (decodeWith opcodeMap 0x14C4).row.sameButIgnored 0x14C4 0x14DC := by decide

theorem witness_LdReadsThePcRelativeCell :
    (((0xFFFF : Word).toNat : Int) = (((0x0002 : Word).toNat : Int) + (0x1FD#9).toInt) % 65536) := by decide

theorem witness_LdrReadsTheBasePlusOffsetCell :
    (((0x000F : Word).toNat : Int) = (((0xFFF0 : Word).toNat : Int) + (0b011111#6).toInt) % 65536) := by decide

theorem witness_LdiReadsTheCellOrTheConsole :
    (at_ 0x3001 zeros [(0x3004, 0xFE03)]).indirect 3 ≠ 0xFE02 ∧
    (keyboard.fetch.indirect 3 = 0xFE02 ∧ keyboard.fetch.input.byteAt keyboard.fetch.inpos = some 0x41) ∧
    (exhausted.fetch.indirect 3 = 0xFE02 ∧ exhausted.fetch.input.byteAt exhausted.fetch.inpos = none) := by decide

/-- A state after a step of the engine, with pointers to both status cells. -/
def settled : State :=
  at_ 0xFE00 ⟨0, 0xFE00, 0xFE04, 0, 0, 0, 0, 0⟩
    [(0xFE00, 0x8000), (0xFE04, 0x8000), (0xFE10, 0xFE00), (0xFE11, 0xFE04)]

theorem witness_PollingSeesReady :
    settled.devicesSettled ∧ settled.pcRel9 0 = 0xFE00 ∧ settled.pcRel9 4 = 0xFE04 ∧
      settled.baseOffset .r1 0 = 0xFE00 ∧ settled.baseOffset .r2 0 = 0xFE04 ∧
      settled.indirect 0x10 = 0xFE00 ∧ settled.indirect 0x11 = 0xFE04 := by decide

theorem witness_StStoresAtThePcRelativeCell :
    (0xFFFE : Word) = (at_ 0xFFF9 zeros []).pcRel9 5 := by decide

theorem witness_StrStoresAtTheBasePlusOffsetCell :
    (0xFFFF : Word) = (at_ 0x3001 zeros []).baseOffset .r2 0b111111 := by decide

theorem witness_StiStoresThroughThePointer :
    (at_ 0x3008 zeros [(0x3008, 0xFFFE)]).indirect 0 = 0xFFFE ∧
      (at_ 0x3008 zeros [(0x3008, 0xFFFF)]).indirect 0 ≠ 0xFFFE := by decide

theorem witness_StoresWriteOneWholeCell :
    ∃ i sr, (∃ f, i = Instr.st sr f) ∨ (∃ b f, i = Instr.str sr b f) ∨ (∃ f, i = Instr.sti sr f) :=
  ⟨.str .r1 .r2 0, .r1, .inr (.inl ⟨.r2, 0, rfl⟩)⟩

theorem witness_BrTestsTheConditionCode :
    (true = true ∧ State.reset.cc = CC.zero) ∧
      ¬ ((true = true ∧ State.reset.cc = .negative) ∨ (false = true ∧ State.reset.cc = .zero) ∨
        (true = true ∧ State.reset.cc = .positive)) := by decide

theorem witness_JsrLinksThenJumps : Reg.r6 ≠ .r7 ∧ Reg.r7 = .r7 := by decide

theorem witness_TrapVectorsThroughTheTable :
    (0x00FF : Word).toNat = (0xFF#8).toNat ∧ (0x0000 : Word).toNat = (0x00#8).toNat := by decide

theorem witness_JumpThroughTheLinkReturns :
    (Instr.jsr 4).writesReg = some .r7 ∧ (Instr.jsr 4).setsCC = false ∧
      ∃ t, exec (.jsr 4) State.reset = .next t ∧ t.readReg .r7 = t.readReg .r7 :=
  ⟨rfl, rfl, _, rfl, rfl⟩

theorem witness_UnusedPatternsDoNothing :
    decodeWith opcodeMap ((at_ 0x3000 zeros [(0x3000, 0x8000)]).memRead 0x3000) = .unused8 ∧
      decodeWith opcodeMap ((at_ 0x3000 zeros [(0x3000, 0xD123)]).memRead 0x3000) = .unused13 := by decide

theorem witness_OnlyTheKeyboardWaits :
    ¬ (Instr.ldi .r0 3).awaitsInput keyboard.fetch ∧ (Instr.ldi .r0 3).awaitsInput exhausted.fetch := by
  decide

theorem witness_OnlyTheKeyboardWaits_step :
    ¬ (decodeWith opcodeMap (keyboard.memRead keyboard.pc)).awaitsInput keyboard.fetch ∧
      (decodeWith opcodeMap (exhausted.memRead exhausted.pc)).awaitsInput exhausted.fetch := by
  decide

/-- Covers OnlyTheTablesRegisterChanges, OnlySevenSetTheConditionCode (not CC-setting), OnlyStiToMcrHalts,
MemoryChangesOnlyAtTheStore (a store), OnlyTheKeyboardConsumesInput and IrHoldsTheFetchedWord. -/
theorem witness_exec_of_a_store :
    ∃ t, exec (.sti .r0 0) (at_ 0x3008 zeros [(0x3008, 0xFFFE)]) = .next t ∧
      (Instr.sti .r0 0).writesReg ≠ some .r0 ∧ (Instr.sti .r0 0).setsCC = false ∧
      (Instr.sti .r0 0).store (at_ 0x3008 zeros [(0x3008, 0xFFFE)]) = some (0xFFFE, 0) := by
  obtain ⟨t, ht, -⟩ := next_of_after
    (o := exec (.sti .r0 0) (at_ 0x3008 zeros [(0x3008, 0xFFFE)])) (check := fun _ => true) (by decide)
  exact ⟨t, ht, by decide⟩

/-- The other clauses of the same statements, and SetCCFollowsTheSign: a CC-setting instruction, no store, a byte consumed. -/
theorem witness_exec_of_a_keyboard_load :
    ∃ t, exec (.ldi .r0 3) keyboard.fetch = .next t ∧ (Instr.ldi .r0 3).setsCC = true ∧
      (Instr.ldi .r0 3).store keyboard.fetch = none ∧
      (Instr.ldi .r0 3).readsConsole keyboard.fetch = true := by
  obtain ⟨t, ht, -⟩ := next_of_after (o := exec (.ldi .r0 3) keyboard.fetch) (check := fun _ => true) (by decide)
  exact ⟨t, ht, by decide⟩

/-- Covers PcFollowsTheTable, DeviceCellsAfterEveryStep, IrHoldsTheFetchedWord, FrameOfAStep, OutputIsNeverRead,
MemoryFollowsTheAccessOrder and StepKeepsStateLegal. -/
theorem witness_step :
    keyboard.wf ∧ decodeWith opcodeMap (keyboard.memRead keyboard.pc) = .ldi .r0 3 ∧
      ∃ t, stepWith opcodeMap keyboard = .next t := by
  obtain ⟨t, ht, -⟩ := next_of_after (o := stepWith opcodeMap keyboard) (check := fun _ => true) (by decide)
  exact ⟨by decide, by decide, t, ht⟩

theorem witness_StepRunsTheDecodedInstruction :
    decode (keyboard.memRead keyboard.pc) = .ldi .r0 3 ∧ (∃ t, exec (.ldi .r0 3) keyboard.fetch = .next t) ∧
      decode (exhausted.memRead exhausted.pc) = .ldi .r0 3 ∧
      exec (.ldi .r0 3) exhausted.fetch = .fault .awaitingInput := by
  obtain ⟨t, ht, -⟩ := next_of_after (o := exec (.ldi .r0 3) keyboard.fetch) (check := fun _ => true) (by decide)
  exact ⟨by decide, ⟨t, ht⟩, by decide, fault_of_waits (by decide)⟩

theorem witness_StepRunsTheEncodedInstruction :
    opcodeMap.wf ∧ (Instr.ldi .r0 3).wf = true ∧
      keyboard.memRead keyboard.pc = encodeWith opcodeMap (.ldi .r0 3) ∧
      exhausted.memRead exhausted.pc = encodeWith opcodeMap (.ldi .r0 3) := by decide

theorem witness_OutputGrowsByTheDrainedValue :
    (∃ t, stepWith opcodeMap (storesFrom 0xFE00 0x3605 0x41) = .next t) ∧
      (Instr.st .r3 5).store (storesFrom 0xFE00 0x3605 0x41).fetch = some (0xFE06, 0x41) ∧
      (Instr.st .r3 5).store (storesFrom 0xFE00 0x3605 0).fetch = some (0xFE06, 0) ∧
      (Instr.st .r3 4).store (storesFrom 0xFE00 0x3604 0x41).fetch = some (0xFE05, 0x41) := by
  obtain ⟨t, ht, -⟩ := next_of_after
    (o := stepWith opcodeMap (storesFrom 0xFE00 0x3605 0x41)) (check := fun t => t.out == [0x41]) (by decide)
  exact ⟨⟨t, ht⟩, by decide⟩

/-- Each address of StoresToDeviceCells, MCR's by ST and by STI. -/
theorem witness_StoresToDeviceCells :
    (Instr.st .r3 0x1FF).store (storesFrom 0xFE00 0x37FF 1).fetch = some (0xFE00, 1) ∧
      (Instr.st .r3 1).store (storesFrom 0xFE00 0x3601 1).fetch = some (0xFE02, 1) ∧
      (Instr.st .r3 3).store (storesFrom 0xFE00 0x3603 1).fetch = some (0xFE04, 1) ∧
      (Instr.st .r3 5).store (storesFrom 0xFE00 0x3605 1).fetch = some (0xFE06, 1) ∧
      (Instr.st .r3 5).store (storesFrom 0xFFF8 0x3605 1).fetch = some (0xFFFE, 1) ∧
      (Instr.sti .r1 4).store (at_ 0xFFF9 zeros [(0xFFF9, 0xB204), (0xFFFE, 0xFFFE)]).fetch
        = some (0xFFFE, 0) ∧
      decodeWith opcodeMap 0x37FF = .st .r3 0x1FF ∧ decodeWith opcodeMap 0xB204 = .sti .r1 4 := by decide

theorem witness_StepIgnoresHalted :
    (∃ t, stepWith opcodeMap { keyboard with halted := false } = .next t) ∧
      stepWith opcodeMap { exhausted with halted := false } = .fault .awaitingInput := by
  obtain ⟨t, ht, -⟩ := next_of_after
    (o := stepWith opcodeMap { keyboard with halted := false }) (check := fun _ => true) (by decide)
  exact ⟨⟨t, ht⟩, fault_of_waits (by decide)⟩

/-- V8.2: the store of the word the next step fetches. -/
def modifiesNext : State := at_ 0x3000 ⟨0x1267, 0, 0, 0, 0, 0, 0, 0⟩ [(0x3000, 0x3000)]

theorem witness_NextFetchSeesTheStore :
    (decodeWith opcodeMap (modifiesNext.memRead modifiesNext.pc)).store modifiesNext.fetch
        = some (modifiesNext.pc + 1, 0x1267) ∧
      modifiesNext.pc + 1 ≠ 0xFE00 ∧ modifiesNext.pc + 1 ≠ 0xFE04 ∧ modifiesNext.pc + 1 ≠ 0xFE06 ∧
      ∃ t u, stepWith opcodeMap modifiesNext = .next t ∧ stepWith opcodeMap t = .next u := by
  refine ⟨by decide, by decide, by decide, by decide, ?_⟩
  obtain ⟨t, ht, hc⟩ := next_of_after (o := stepWith opcodeMap modifiesNext)
    (check := fun t => after (stepWith opcodeMap t) (fun u => u.readReg .r1 == 7)) (by decide)
  obtain ⟨u, hu, -⟩ := next_of_after hc
  exact ⟨t, u, ht, hu⟩

theorem witness_WaitingStepResumesWithInput :
    exhausted.wf ∧ stepWith opcodeMap exhausted = .fault .awaitingInput :=
  ⟨by decide, fault_of_waits (by decide)⟩

theorem witness_OnlyTheNextInputByteMatters :
    (∃ t, stepWith opcodeMap keyboard = .next t) ∧
      (Input.endless [0x41, 0x42] 0).byteAt keyboard.inpos = keyboard.input.byteAt keyboard.inpos ∧
      (∃ t, stepWith opcodeMap modifiesNext = .next t) ∧
      (decodeWith opcodeMap (modifiesNext.memRead modifiesNext.pc)).readsConsole modifiesNext.fetch = false := by
  obtain ⟨t, ht, -⟩ := next_of_after (o := stepWith opcodeMap keyboard) (check := fun _ => true) (by decide)
  obtain ⟨u, hu, -⟩ := next_of_after (o := stepWith opcodeMap modifiesNext) (check := fun _ => true) (by decide)
  exact ⟨⟨t, ht⟩, by decide, ⟨u, hu⟩, by decide⟩

theorem witness_HaltedStaysSet :
    ∃ t, ({ State.reset with halted := true } : State).halted = true ∧
      stepsWith opcodeMap 2 { State.reset with halted := true } = .next t := by
  obtain ⟨t, ht, -⟩ := next_of_after
    (o := stepsWith opcodeMap 2 { State.reset with halted := true }) (check := fun _ => true) (by decide)
  exact ⟨t, rfl, ht⟩

/-- A program that reads the keyboard for ever: LDI R0,#3 and a branch back to it. -/
def readsForEver (input : Input) : State :=
  { at_ 0x3000 zeros [(0x3000, 0xA003), (0x3001, 0x0FFE), (0x3004, 0xFE02)] with input := input }

theorem witness_EndlessInputNeverWaits : (readsForEver (.endless [0x41] 7)).input = .endless [0x41] 7 := rfl

/-- A finite input and an endless one that agree on the one byte that two steps consume. -/
theorem witness_StepsDependOnTheConsumedBytes :
    ∃ t, stepsWith opcodeMap 2 (readsForEver (.finite [0x41, 0x42])) = .next t ∧ t.inpos = 1 ∧
      ∀ p, 0 ≤ p → p < 1 → (Input.endless [0x41] 7).byteAt p = (Input.finite [0x41, 0x42]).byteAt p := by
  obtain ⟨t, ht, hp⟩ := next_of_after (o := stepsWith opcodeMap 2 (readsForEver (.finite [0x41, 0x42])))
    (check := fun t => decide (t.inpos = 1)) (by decide)
  refine ⟨t, ht, by simpa using hp, ?_⟩
  intro p _ h
  obtain rfl : p = 0 := by omega
  rfl

end Sys2Proof.Tests
end

/-! PROOFS, family 00_scope: extensions (R14), the snapshot (R11), runs over an endless input (R6, R181). -/

namespace Sys2Proof.Machine

/-! Sign and zero extension (R14). -/

section Extensions

variable {n : Nat} (f : BitVec n)

theorem getLsbD_sext (k : Nat) (hk : k < 16) :
    (sext f).getLsbD k = if k < n then f.getLsbD k else f.getLsbD (n - 1) := by
  simp only [sext, BitVec.getLsbD_signExtend, BitVec.msb_eq_getLsbD_last, hk, decide_true, Bool.true_and]

theorem getLsbD_zext (k : Nat) (hk : k < 16) :
    (zext f).getLsbD k = if k < n then f.getLsbD k else false := by
  by_cases hn : k < n
  · simp [zext, hk, hn]
  · simp [zext, hn, BitVec.getLsbD_of_ge f k (by omega)]

theorem toNat_zext (h : n ≤ 16) : (zext f).toNat = f.toNat := by
  simpa [zext] using Nat.mod_eq_of_lt (f.isLt.trans_le (Nat.pow_le_pow_right (by decide) h))

/-- A field with its top bit clear keeps its value; with it set, the ones added above are worth `65536 - 2 ^ n`. -/
theorem toNat_sext (h : n ≤ 16) :
    (sext f).toNat = if f.toNat < 2 ^ (n - 1) then f.toNat else f.toNat + 65536 - 2 ^ n := by
  have hpow : 2 ^ n ≤ 65536 := Nat.pow_le_pow_right (n := 2) (by decide) h
  have hzext : (f.setWidth 16).toNat = f.toNat := toNat_zext f h
  rw [sext, BitVec.toNat_signExtend, hzext, BitVec.msb_eq_decide]
  by_cases htop : f.toNat < 2 ^ (n - 1)
  · simp [htop]
  · simp only [htop, not_lt.mp htop, decide_true, if_true, if_false]
    omega

end Extensions

/-- Settles O1: the bits by the library's laws of widening, the values by whether the field's top bit is set. -/
theorem extensionsKeepTheField : Obligations.ExtensionsKeepTheField := by
  intro n f _ h
  exact ⟨getLsbD_sext f, toNat_sext f h, getLsbD_zext f, toNat_zext f h⟩

/-! The snapshot (R11). -/

/-- Two register files are equal exactly when every register reads the same. -/
theorem Regs.eq_iff_get {x y : Regs} : x = y ↔ ∀ r, x.get r = y.get r := by
  refine ⟨fun h r => h ▸ rfl, fun h => ?_⟩
  cases x
  cases y
  rw [Regs.mk.injEq]
  exact ⟨h .r0, h .r1, h .r2, h .r3, h .r4, h .r5, h .r6, h .r7⟩

/-- The display's tag tells the three condition codes apart (R29). -/
@[simp] theorem CC.tag_inj {c d : CC} : c.tag = d.tag ↔ c = d := by
  cases c <;> cases d <;> decide

theorem regsSame_iff {s t : State} : RegsSame s t ↔ t.x = s.x := Regs.eq_iff_get.symm

/-- Settles O56: the register file is equal exactly when its registers are, and the tag determines the condition code. -/
theorem snapshotShowsExactlyTheObservableState : Obligations.SnapshotShowsExactlyTheObservableState := by
  intro s t
  rw [regsSame_iff, eq_comm (a := t.x)]
  simp [State.snapshot]

/-! What an instruction and a step can answer. -/

/-- LDI has one way to stop: a keyboard read with no input left (R133, R181). -/
theorem execLdi_completes_or_waits (dr : Reg) (offset9 : BitVec 9) (s : State) :
    (∃ t, execLdi dr offset9 s = .next t ∧ t.input = s.input) ∨
      (execLdi dr offset9 s = .fault .awaitingInput ∧ s.indirect offset9 = kbdrAddr ∧
        s.input.byteAt s.inpos = none) := by
  unfold execLdi
  by_cases hkbdr : s.indirect offset9 = kbdrAddr
  · rw [if_pos hkbdr]
    cases hread : s.consoleRead with
    | none => exact .inr ⟨rfl, hkbdr, consoleRead_none.mp hread⟩
    | some read =>
      obtain ⟨c, u⟩ := read
      obtain ⟨-, rfl⟩ := consoleRead_some hread
      exact .inl ⟨_, rfl, rfl⟩
  · rw [if_neg hkbdr]
    exact .inl ⟨_, rfl, rfl⟩

/-- An instruction completes, with the input it had, unless it is a keyboard LDI with no input left (R115, R181). -/
theorem exec_completes_or_waits (i : Instr) (s : State) :
    (∃ t, exec i s = .next t ∧ t.input = s.input) ∨
      (exec i s = .fault .awaitingInput ∧ i.awaitsInput s = true) := by
  cases i
  case ldi dr offset9 =>
    refine (execLdi_completes_or_waits dr offset9 s).imp id fun ⟨hwait, hkbdr, hnone⟩ => ⟨hwait, ?_⟩
    simp [Instr.awaitsInput, Instr.readsConsole, hkbdr, hnone]
  case br n z p offset9 =>
    left
    by_cases htaken : s.cc.taken n z p
    · exact ⟨_, if_pos htaken, rfl⟩
    · exact ⟨_, if_neg htaken, rfl⟩
  case sti sr offset9 =>
    left
    by_cases hmcr : s.indirect offset9 = mcrAddr
    · exact ⟨_, if_pos hmcr, rfl⟩
    · exact ⟨_, if_neg hmcr, rfl⟩
  all_goals exact .inl ⟨_, rfl, rfl⟩

theorem stepWith_of_exec_next {m : OpcodeMap} {s u : State}
    (h : exec (decodeWith m s.fetch.ir) s.fetch = .next u) : stepWith m s = .next u.reconcile := by
  rw [stepWith, h, finish]

theorem awaitsInput_endless {s : State} {first : List Byte} {tape : Nat} (h : s.input = .endless first tape)
    (i : Instr) : i.awaitsInput s = false := by
  simp [Instr.awaitsInput, h]

/-- With an endless input a step completes and leaves the input the same. -/
theorem stepWith_endless (m : OpcodeMap) {s : State} {first : List Byte} {tape : Nat}
    (h : s.input = .endless first tape) : ∃ t, stepWith m s = .next t ∧ t.input = .endless first tape := by
  have hfetch : s.fetch.input = .endless first tape := h
  obtain ⟨u, hu, hin⟩ | ⟨-, hwait⟩ := exec_completes_or_waits (decodeWith m s.fetch.ir) s.fetch
  · exact ⟨u.reconcile, stepWith_of_exec_next hu, by rw [reconcile_input, hin, hfetch]⟩
  · rw [awaitsInput_endless hfetch] at hwait
    cases hwait

/-! Runs from a predicate under which every step completes. -/

section Runs

variable {m : OpcodeMap} {s t : State}

theorem stepsWith_succ_of_next (n : Nat) (h : stepWith m s = .next t) :
    stepsWith m (n + 1) s = stepsWith m n t := by
  rw [stepsWith, h]

theorem runWith_succ_of_halted (n : Nat) (h : s.halted = true) : runWith m (n + 1) s = .next s := by
  rw [runWith, if_pos h]

theorem runWith_succ_of_next (n : Nat) (hrun : ¬ s.halted = true) (h : stepWith m s = .next t) :
    runWith m (n + 1) s = runWith m n t := by
  rw [runWith, if_neg hrun, h]

variable {P : State → Prop} (hstep : ∀ s, P s → ∃ t, stepWith m s = .next t ∧ P t)
include hstep

/-- When a predicate makes every step complete and every step keeps it, any number of steps completes and keeps it. -/
theorem stepsWith_completes_of_invariant (n : Nat) (hs : P s) : ∃ t, stepsWith m n s = .next t ∧ P t := by
  induction n generalizing s with
  | zero => exact ⟨s, rfl, hs⟩
  | succ n ih =>
    obtain ⟨u, hu, hPu⟩ := hstep s hs
    rw [stepsWith_succ_of_next n hu]
    exact ih hPu

/-- Under the same premise the driver's loop completes, halted or not. -/
theorem safeRun_of_invariant (n : Nat) (hs : P s) : SafeRun m n s := by
  induction n generalizing s with
  | zero => exact ⟨s, rfl⟩
  | succ n ih =>
    by_cases hhalted : s.halted = true
    · exact ⟨s, runWith_succ_of_halted n hhalted⟩
    · obtain ⟨u, hu, hPu⟩ := hstep s hs
      rw [SafeRun, runWith_succ_of_next n hhalted hu]
      exact ih hPu

end Runs

/-- Settles O57: "the input is this endless one" is kept by every step, and makes every step complete. -/
theorem endlessInputNeverWaits : Obligations.EndlessInputNeverWaits := by
  intro m n s first tape hin
  have hstep : ∀ s : State, s.input = .endless first tape →
      ∃ t, stepWith m s = .next t ∧ t.input = .endless first tape := fun _ h => stepWith_endless m h
  exact ⟨stepsWith_completes_of_invariant hstep n hin, safeRun_of_invariant hstep n hin⟩

end Sys2Proof.Machine

/-! PROOFS, family 10_state: the tables of R22, R24 and R28 gathered into one state that every instruction's outcome is
read off from; the legal states, the condition code, the console and the device cells. -/

namespace Sys2Proof

open Machine

/-! One instruction as one state (R112, R115). -/

/-- The value a register-writing instruction puts into its destination register (R120 to R133, R152, R153); 0 for the
others. -/
def Instr.value (i : Instr) (s : State) : Word :=
  match i with
  | .addReg _ sr1 sr2 => s.readReg sr1 + s.readReg sr2
  | .addImm _ sr1 imm5 => s.readReg sr1 + sext imm5
  | .andReg _ sr1 sr2 => s.readReg sr1 &&& s.readReg sr2
  | .andImm _ sr1 imm5 => s.readReg sr1 &&& sext imm5
  | .not _ sr1 => ~~~ s.readReg sr1
  | .lea _ offset9 => s.pcRel9 offset9
  | .ld _ offset9 => s.memRead (s.pcRel9 offset9)
  | .ldr _ sr1 offset6 => s.memRead (s.baseOffset sr1 offset6)
  | .ldi _ offset9 =>
    if s.indirect offset9 = kbdrAddr then zext ((s.input.byteAt s.inpos).getD 0)
    else s.memRead (s.indirect offset9)
  | .jsr _ | .jsrr _ | .trap _ => s.pc
  | .st _ _ | .str _ _ _ | .sti _ _ | .br _ _ _ _ | .jmp _ | .unused8 | .unused13 => 0

/-- The state an instruction that completes leads to, field by field from the model's tables; `exec_eq` ties it to
`exec`. -/
def Instr.effect (i : Instr) (s : State) : State where
  x := i.writesReg.elim s.x (fun dr => s.x.set dr (i.value s))
  pc := i.pcAfter s
  ir := s.ir
  cc := if i.setsCC then ccOf (i.value s) else s.cc
  halted := i.halts s || s.halted
  mem := (i.store s).elim s.mem (fun c => s.mem.write c.1.toNat c.2)
  input := s.input
  inpos := if i.readsConsole s then s.inpos + 1 else s.inpos
  out := s.out

namespace Machine

variable {i : Instr} {s t : State} {m : OpcodeMap}

/-! The four instructions whose rule has a case distinction. -/

theorem execBr_eq (n z p : Bool) (offset9 : BitVec 9) (s : State) :
    execBr n z p offset9 s = .next ((Instr.br n z p offset9).effect s) := by
  by_cases htaken : s.cc.taken n z p
  · simp only [execBr, Instr.effect, Instr.pcAfter, if_pos htaken]
    rfl
  · simp only [execBr, Instr.effect, Instr.pcAfter, if_neg htaken]
    rfl

theorem execJsrr_eq (sr1 : Reg) (s : State) : execJsrr sr1 s = .next ((Instr.jsrr sr1).effect s) := by
  simp only [execJsrr, State.jumpTo, readReg_link]
  rfl

theorem execSti_eq (sr : Reg) (offset9 : BitVec 9) (s : State) :
    execSti sr offset9 s = .next ((Instr.sti sr offset9).effect s) := by
  by_cases hmcr : s.indirect offset9 = mcrAddr
  · simp only [execSti, Instr.effect, Instr.halts, if_pos hmcr, beq_iff_eq.mpr hmcr]
    rfl
  · simp only [execSti, Instr.effect, Instr.halts, if_neg hmcr, beq_eq_false_iff_ne.mpr hmcr]
    rfl

theorem execLdi_eq (dr : Reg) (offset9 : BitVec 9) (s : State) :
    execLdi dr offset9 s =
      if (Instr.ldi dr offset9).awaitsInput s then .fault .awaitingInput
      else .next ((Instr.ldi dr offset9).effect s) := by
  by_cases hkbdr : s.indirect offset9 = kbdrAddr
  · cases hbyte : s.input.byteAt s.inpos with
    | none => simp [execLdi, consoleRead_none.mpr hbyte, Instr.awaitsInput, Instr.readsConsole, hkbdr, hbyte]
    | some c =>
      have hgoes : (Instr.ldi dr offset9).awaitsInput s = false := by simp [Instr.awaitsInput, hbyte]
      simp only [hgoes, execLdi, State.consoleRead, Instr.effect, Instr.value, Instr.readsConsole, hkbdr, hbyte,
        beq_self_eq_true]
      rfl
  · have hreads : (Instr.ldi dr offset9).readsConsole s = false := beq_eq_false_iff_ne.mpr hkbdr
    simp only [Instr.awaitsInput, hreads, execLdi, Instr.effect, Instr.value, if_neg hkbdr]
    rfl

/-- Every instruction leads to its effect, unless it waits for the console for ever (R115, R181). -/
theorem exec_eq (i : Instr) (s : State) :
    exec i s = if i.awaitsInput s then .fault .awaitingInput else .next (i.effect s) := by
  cases i
  case br n z p offset9 => exact execBr_eq n z p offset9 s
  case jsrr sr1 => exact execJsrr_eq sr1 s
  case sti sr offset9 => exact execSti_eq sr offset9 s
  case ldi dr offset9 => exact execLdi_eq dr offset9 s
  all_goals rfl

theorem exec_next_iff : exec i s = .next t ↔ i.awaitsInput s = false ∧ t = i.effect s := by
  rw [exec_eq]
  by_cases hwait : i.awaitsInput s = true <;> simp [hwait, eq_comm]

/-- A step that completes is the effect of the fetched instruction, then the reconciliation (R110). -/
theorem stepWith_next_effect (h : stepWith m s = .next t) :
    (decodeWith m (s.memRead s.pc)).awaitsInput s.fetch = false ∧
      t = ((decodeWith m (s.memRead s.pc)).effect s.fetch).reconcile := by
  obtain ⟨u, hu, rfl⟩ := stepWith_next h
  obtain ⟨hwait, rfl⟩ := exec_next_iff.mp hu
  exact ⟨hwait, rfl⟩

/-! What an effect leaves in registers, memory and the console. -/

theorem effect_readReg_of_writes {dr : Reg} (h : i.writesReg = some dr) (s : State) :
    (i.effect s).readReg dr = i.value s := by
  simp [State.readReg, Instr.effect, h]

theorem effect_readReg_of_ne {r : Reg} (h : i.writesReg ≠ some r) (s : State) :
    (i.effect s).readReg r = s.readReg r := by
  cases hdr : i.writesReg with
  | none => simp [State.readReg, Instr.effect, hdr]
  | some dr =>
    have hne : r ≠ dr := fun heq => h (heq ▸ hdr)
    simp [State.readReg, Instr.effect, hdr, Regs.get_set_other _ _ hne]

theorem effect_mem_of_store {a v : Word} (h : i.store s = some (a, v)) :
    (i.effect s).mem = (s.memWrite a v).mem := by
  simp [Instr.effect, h]

theorem effect_mem_of_no_store (h : i.store s = none) : (i.effect s).mem = s.mem := by
  simp [Instr.effect, h]

theorem effect_memRead_of_store {a v : Word} (h : i.store s = some (a, v)) (b : Word) :
    (i.effect s).memRead b = if b = a then v else s.memRead b := by
  rw [← memRead_memWrite, State.memRead, effect_mem_of_store h, State.memRead]

theorem effect_memRead_of_no_store (h : i.store s = none) (b : Word) :
    (i.effect s).memRead b = s.memRead b := by
  rw [State.memRead, effect_mem_of_no_store h, State.memRead]

/-- An instruction that does not wait and reads the console finds a byte there. -/
theorem hasInput_of_readsConsole (hwait : i.awaitsInput s = false) (hread : i.readsConsole s = true) :
    s.hasInput := by
  simpa [Instr.awaitsInput, hread] using hwait

/-! Legal states (R31, R36). -/

theorem effect_mem_wf (h : s.mem.wf) : (i.effect s).mem.wf := by
  cases hstore : i.store s with
  | none => rwa [effect_mem_of_no_store hstore]
  | some c =>
    rw [effect_mem_of_store hstore]
    exact memWrite_wf h c.1 c.2

theorem effect_reaches (hwait : i.awaitsInput s = false) (h : s.input.reaches s.inpos = true) :
    s.input.reaches (i.effect s).inpos = true := by
  by_cases hread : i.readsConsole s = true
  · have hbyte : s.hasInput := hasInput_of_readsConsole hwait hread
    rw [State.hasInput, byteAt_isSome] at hbyte
    simpa [Instr.effect, hread] using hbyte
  · simpa [Instr.effect, hread] using h

theorem reconcile_state_wf (h : s.wf) : s.reconcile.wf := by
  obtain ⟨hmem, hinput⟩ := h
  exact ⟨reconcile_wf hmem, by simpa using hinput⟩

/-- Settles O51: a store keeps memory canonical, a console read leaves the position inside the input because there was a
byte, and the reconciliation stores only. -/
theorem stepKeepsStateLegal : Obligations.StepKeepsStateLegal := by
  intro m s t hs h
  obtain ⟨hmem, hinput⟩ : s.fetch.wf := hs
  obtain ⟨hwait, rfl⟩ := stepWith_next_effect h
  exact reconcile_state_wf ⟨effect_mem_wf hmem, effect_reaches hwait hinput⟩

/-- Settles O52: no cell is listed and no byte is consumed. -/
theorem resetStateIsLegal : Obligations.ResetStateIsLegal := ⟨reset_mem_wf, rfl⟩

/-- Settles O53. -/
theorem resetValuesTheSpecGives : Obligations.ResetValuesTheSpecGives := ⟨rfl, rfl, rfl⟩

/-! Memory's canonical form is unique (R31, log 8). -/

theorem Memory.mem_of_read_ne {mem : Memory} {a : Nat} (h : mem.read a ≠ Memory.unlisted) :
    (a, mem.read a) ∈ mem := by
  induction mem with
  | nil => exact absurd rfl h
  | cons c mem ih =>
    obtain ⟨b, w⟩ := c
    by_cases hb : b = a
    · simp [Memory.read, hb]
    · rw [Memory.read, if_neg hb] at h ⊢
      exact List.mem_cons_of_mem _ (ih h)

theorem Memory.read_of_mem {mem : Memory} {a : Nat} {v : Word} (h : mem.wf) (hc : (a, v) ∈ mem) :
    mem.read a = v := by
  obtain ⟨hsorted, -⟩ := h
  induction mem with
  | nil => cases hc
  | cons c mem ih =>
    obtain ⟨b, w⟩ := c
    obtain ⟨hhead, htail⟩ := List.pairwise_cons.mp hsorted
    rcases List.mem_cons.mp hc with heq | hc
    · obtain ⟨rfl, rfl⟩ := Prod.mk.inj heq
      simp [Memory.read]
    · have hlt : b < a := hhead _ hc
      rw [Memory.read, if_neg hlt.ne, ih hc htail]

/-- A canonical memory lists exactly the cells that do not read as an unlisted one. -/
theorem Memory.mem_iff_read {mem : Memory} (h : mem.wf) (a : Nat) (v : Word) :
    (a, v) ∈ mem ↔ mem.read a = v ∧ v ≠ Memory.unlisted := by
  constructor
  · exact fun hc => ⟨Memory.read_of_mem h hc, (h.2 _ hc).2⟩
  · rintro ⟨rfl, hv⟩
    exact Memory.mem_of_read_ne hv

/-- Above the last address a canonical memory reads as unlisted. -/
theorem Memory.read_of_le {mem : Memory} (h : mem.wf) {a : Nat} (ha : 65536 ≤ a) :
    mem.read a = Memory.unlisted := by
  by_contra hne
  exact absurd (h.2 _ (Memory.mem_of_read_ne hne)).1 ha.not_gt

/-- Two sorted lists with the same members are the same list. -/
theorem Memory.eq_of_mem_iff {mem mem' : Memory} (h : mem.wf) (h' : mem'.wf)
    (hiff : ∀ c, c ∈ mem ↔ c ∈ mem') : mem = mem' := by
  have hirrefl : Std.Irrefl fun c d : Nat × Word => c.1 < d.1 := ⟨fun c => lt_irrefl c.1⟩
  have hantisymm : Std.Antisymm fun c d : Nat × Word => c.1 < d.1 :=
    ⟨fun _ _ hlt hgt => absurd hgt hlt.not_gt⟩
  exact List.Pairwise.eq_of_mem_iff h.1 h'.1 hiff

/-- Settles O5: a canonical memory's members are told by what it reads, and they determine the sorted list. -/
theorem canonicalMemoryIsUnique : Obligations.CanonicalMemoryIsUnique := by
  intro mem mem' h h' hread
  have hread' : ∀ a : Nat, mem.read a = mem'.read a := by
    intro a
    by_cases ha : a < 65536
    · simpa [Nat.mod_eq_of_lt ha] using hread (BitVec.ofNat 16 a)
    · rw [Memory.read_of_le h (not_lt.mp ha), Memory.read_of_le h' (not_lt.mp ha)]
  refine Memory.eq_of_mem_iff h h' fun ⟨a, v⟩ => ?_
  rw [Memory.mem_iff_read h, Memory.mem_iff_read h', hread']

/-! The condition code (R27, R28, R29). -/

theorem signed_neg_iff (v : Word) : v.signed < 0 ↔ v.getLsbD 15 = true := by
  have hmsb : v.getLsbD 15 = decide (32768 ≤ v.toNat) :=
    (BitVec.msb_eq_getLsbD_last v).symm.trans (BitVec.msb_eq_decide v)
  have hlt : v.toNat < 65536 := v.isLt
  rw [hmsb, decide_eq_true_iff, Word.signed]
  split <;> omega

theorem signed_eq_zero_iff (v : Word) : v.signed = 0 ↔ v = 0 := by
  have hzero : v = 0 ↔ v.toNat = 0 := BitVec.toNat_inj.symm
  have hlt : v.toNat < 65536 := v.isLt
  rw [hzero, Word.signed]
  split <;> omega

/-- `SetCC` makes the three-way comparison of the signed reading with 0 (R27). -/
theorem signOf_ccOf (v : Word) : SignOf v (ccOf v) := by
  rw [SignOf, ← signed_eq_zero_iff, ccOf]
  by_cases hzero : v = 0
  · rw [if_pos hzero, (signed_eq_zero_iff v).mpr hzero]
    decide
  · have hne : v.signed ≠ 0 := fun h => hzero ((signed_eq_zero_iff v).mp h)
    simp only [if_neg hzero, ← signed_neg_iff]
    rcases lt_or_gt_of_ne hne with hneg | hpos
    · simp [hneg, hne, hneg.le]
    · simp [hpos, hne, hpos.not_gt]

/-- The seven CC-setting operations write a register (R22, R28). -/
theorem writesReg_of_setsCC (h : i.setsCC = true) : ∃ dr, i.writesReg = some dr := by
  cases i
  case addReg dr _ _ | addImm dr _ _ | andReg dr _ _ | andImm dr _ _ | not dr _ | lea dr _ | ld dr _ | ldr dr _ _
    | ldi dr _ => exact ⟨dr, rfl⟩
  all_goals cases h

theorem effect_signOf (h : i.setsCC = true) (s : State) :
    ∃ dr, i.writesReg = some dr ∧ SignOf ((i.effect s).readReg dr) (i.effect s).cc := by
  obtain ⟨dr, hdr⟩ := writesReg_of_setsCC h
  refine ⟨dr, hdr, ?_⟩
  have hcc : (i.effect s).cc = ccOf (i.value s) := if_pos h
  rw [effect_readReg_of_writes hdr, hcc]
  exact signOf_ccOf _

/-- Settles O2: `SetCC` is the sign by `signOf_ccOf`, and every CC-setting instruction ends with it. -/
theorem setCCFollowsTheSign : Obligations.SetCCFollowsTheSign := by
  refine ⟨fun s v => ⟨signOf_ccOf v, fun _ => rfl, fun _ => rfl, ⟨rfl, rfl, rfl⟩, rfl, rfl, rfl⟩, ?_⟩
  intro i s t hsets h
  obtain ⟨-, rfl⟩ := exec_next_iff.mp h
  exact effect_signOf hsets s

/-- BR's test over the three condition bits as one field (R29, D11). -/
theorem taken_iff_mask (f : BitVec 3) (cc : CC) :
    cc.taken (f.getLsbD 2) (f.getLsbD 1) (f.getLsbD 0) = true ↔ f &&& cc.bits ≠ 0 := by
  revert f
  cases cc <;> decide

/-- Settles O24: bits 11, 10 and 9 of the word are the bits of its field [11:9]. -/
theorem brTestIsAMaskOfTheWord : Obligations.BrTestIsAMaskOfTheWord := by
  intro w cc
  rw [← taken_iff_mask]
  simp [nFlag, zFlag, pFlag]

/-! The tables of R22, R24, R25, R36 and the device cells (R33), read off the effect. -/

/-- Settles O31. -/
theorem onlyTheTablesRegisterChanges : Obligations.OnlyTheTablesRegisterChanges := by
  intro i s t h r hr
  obtain ⟨-, rfl⟩ := exec_next_iff.mp h
  exact effect_readReg_of_ne hr s

/-- Settles O32: the reconciliation leaves the pc of the effect. -/
theorem pcFollowsTheTable : Obligations.PcFollowsTheTable := by
  intro m s t h
  obtain ⟨-, rfl⟩ := stepWith_next_effect h
  exact ⟨rfl, reconcile_pc _⟩

/-- Settles O36. -/
theorem onlyTheKeyboardConsumesInput : Obligations.OnlyTheKeyboardConsumesInput := by
  intro i s t h
  obtain ⟨-, rfl⟩ := exec_next_iff.mp h
  exact ⟨rfl, rfl, rfl⟩

theorem reconcile_devicesSettled (s : State) : s.reconcile.devicesSettled := by
  refine ⟨?_, ?_, ?_⟩ <;> rw [reconcile_memRead] <;> rfl

/-- Settles O40: every step ends with the reconciliation, which settles the device cells. -/
theorem deviceCellsAfterEveryStep : Obligations.DeviceCellsAfterEveryStep := by
  intro m s t h
  obtain ⟨u, -, rfl⟩ := stepWith_next h
  exact reconcile_devicesSettled u

/-- Settles O41: the fetch writes `ir` before anything could read it, and nothing after it does. -/
theorem irHoldsTheFetchedWord : Obligations.IrHoldsTheFetchedWord := by
  refine ⟨fun i s t h => ?_, fun m s w => ⟨rfl, fun t h => ?_⟩⟩
  · obtain ⟨-, rfl⟩ := exec_next_iff.mp h
    rfl
  · obtain ⟨-, rfl⟩ := stepWith_next_effect h
    exact reconcile_ir _

/-- Settles O42: the drain emits what DDR holds after the instruction, the value just stored or the old one. -/
theorem outputGrowsByTheDrainedValue : Obligations.OutputGrowsByTheDrainedValue := by
  intro m s t h
  obtain ⟨-, rfl⟩ := stepWith_next_effect h
  rw [reconcile_out]
  refine ⟨fun v hstore => ?_, fun hother => ?_⟩
  · have hddr : ((decodeWith m (s.memRead s.pc)).effect s.fetch).memRead ddrAddr = v :=
      (effect_memRead_of_store hstore _).trans (if_pos rfl)
    rw [hddr]
    rfl
  · have hddr : ((decodeWith m (s.memRead s.pc)).effect s.fetch).memRead ddrAddr = s.memRead ddrAddr := by
      cases hstore : (decodeWith m (s.memRead s.pc)).store s.fetch with
      | none => exact effect_memRead_of_no_store hstore _
      | some c =>
        obtain ⟨a, v⟩ := c
        have hne : ddrAddr ≠ a := by
          rintro rfl
          exact hother v hstore
        rw [effect_memRead_of_store hstore, if_neg hne, memRead_fetch]
    rw [hddr]
    rfl

/-! What an instruction does not read: `ir`, `halted`, the output, the input but for the byte at the position, and, in
every instruction but BR, the condition code. -/

/-- The byte an LDI would take, or that it takes none, is all it knows of the input (R133, R36). -/
theorem value_ldi_replace_input {dr : Reg} {offset9 : BitVec 9} {j : Input}
    (hin : j.byteAt s.inpos = s.input.byteAt s.inpos ∨ (Instr.ldi dr offset9).readsConsole s = false) :
    (Instr.ldi dr offset9).value { s with input := j } = (Instr.ldi dr offset9).value s := by
  rcases hin with hbyte | hread
  · simp only [Instr.value, hbyte]
    rfl
  · have hkbdr : ¬ s.indirect offset9 = kbdrAddr := by simpa [Instr.readsConsole] using hread
    exact (if_neg hkbdr).trans (if_neg hkbdr).symm

section Replace

variable {c : CC} {j : Input} (w : Word) (h : Bool) (o : List Word)

/-- From a state with those components replaced an instruction has the same effect, with them replaced. -/
theorem effect_replace (hcc : c = s.cc ∨ ∀ n z p f, i ≠ .br n z p f)
    (hin : j.byteAt s.inpos = s.input.byteAt s.inpos ∨ i.readsConsole s = false) :
    i.effect { s with ir := w, cc := c, halted := h, input := j, out := o } =
      { i.effect s with
        ir := w, cc := if i.setsCC then ccOf (i.value s) else c, halted := i.halts s || h, input := j, out := o } := by
  cases i
  case br n z p offset9 =>
    obtain rfl : c = s.cc := hcc.resolve_right fun hbr => hbr n z p offset9 rfl
    rfl
  case ldi dr offset9 =>
    have hvalue : (Instr.ldi dr offset9).value { s with ir := w, cc := c, halted := h, input := j, out := o } =
        (Instr.ldi dr offset9).value s := value_ldi_replace_input hin
    simp only [Instr.effect, hvalue]
    rfl
  all_goals rfl

theorem awaitsInput_replace
    (hin : j.byteAt s.inpos = s.input.byteAt s.inpos ∨ i.readsConsole s = false) :
    i.awaitsInput { s with ir := w, cc := c, halted := h, input := j, out := o } = i.awaitsInput s := by
  have hreads : i.readsConsole { s with ir := w, cc := c, halted := h, input := j, out := o } =
      i.readsConsole s := by
    cases i <;> rfl
  rw [Instr.awaitsInput, Instr.awaitsInput, hreads]
  rcases hin with hbyte | hread
  · simp only [State.hasInput, hbyte]
  · simp only [hread, Bool.false_and]

theorem exec_replace (hwait : i.awaitsInput s = false) (hcc : c = s.cc ∨ ∀ n z p f, i ≠ .br n z p f)
    (hin : j.byteAt s.inpos = s.input.byteAt s.inpos ∨ i.readsConsole s = false) :
    exec i { s with ir := w, cc := c, halted := h, input := j, out := o } =
      .next { i.effect s with
        ir := w, cc := if i.setsCC then ccOf (i.value s) else c, halted := i.halts s || h, input := j, out := o } :=
  exec_next_iff.mpr ⟨(awaitsInput_replace w h o hin).trans hwait, (effect_replace w h o hcc hin).symm⟩

end Replace

/-- Settles O33: the effect sets `cc` from the value written when the table says so, and else leaves it; only BR's pc
depends on the `cc` before. -/
theorem onlySevenSetTheConditionCode : Obligations.OnlySevenSetTheConditionCode := by
  intro i s t h
  obtain ⟨hwait, rfl⟩ := exec_next_iff.mp h
  refine ⟨fun hsets => if_neg (by simp [hsets]), fun hsets => effect_signOf hsets s, fun c hsets => ?_,
    fun c hsets hbr => ?_⟩
  · have hbr : ∀ n z p f, i ≠ .br n z p f := by
      rintro n z p f rfl
      cases hsets
    refine (exec_replace s.ir s.halted s.out hwait (.inr hbr) (.inl rfl)).trans ?_
    simp only [Instr.effect, hsets, if_true]
  · refine (exec_replace s.ir s.halted s.out hwait (.inr hbr) (.inl rfl)).trans ?_
    simp [Instr.effect, hsets]

/-- Settles O34: `halted` is a disjunct of its new value and of nothing else. -/
theorem onlyStiToMcrHalts : Obligations.OnlyStiToMcrHalts := by
  intro i s t h
  obtain ⟨hwait, rfl⟩ := exec_next_iff.mp h
  refine ⟨Bool.or_comm _ _, fun b => ?_⟩
  rw [Bool.or_comm]
  exact exec_replace s.ir b s.out hwait (.inl rfl) (.inl rfl)

/-! Steps from states with another console. -/

theorem stepWith_input (h : stepWith m s = .next t) : t.input = s.input := by
  obtain ⟨-, rfl⟩ := stepWith_next_effect h
  exact reconcile_input _

theorem drain_replace (s : State) (j : Input) (o : List Word) :
    { s with input := j, out := o ++ s.out }.drain = { s.drain with input := j, out := o ++ s.drain.out } := by
  by_cases hddr : s.memRead ddrAddr = 0
  · have hsame : s.drain = s := if_pos hddr
    rw [hsame]
    exact if_pos hddr
  · have hemits : s.drain = (s.consoleWrite (s.memRead ddrAddr)).memWrite ddrAddr 0 := if_neg hddr
    rw [hemits, memWrite_out, consoleWrite_out, ← List.append_assoc]
    exact if_neg hddr

theorem reconcile_replace (s : State) (j : Input) (o : List Word) :
    { s with input := j, out := o ++ s.out }.reconcile =
      { s.reconcile with input := j, out := o ++ s.reconcile.out } := by
  rw [State.reconcile, drain_replace]
  rfl

/-- A step knows of the console at most the next input byte, and the drain puts its value behind what is there. -/
theorem stepWith_replace {j : Input} (o : List Word) (h : stepWith m s = .next t)
    (hin : j.byteAt s.inpos = s.input.byteAt s.inpos ∨
      (decodeWith m (s.memRead s.pc)).readsConsole s.fetch = false) :
    stepWith m { s with input := j, out := o ++ s.out } = .next { t with input := j, out := o ++ t.out } := by
  obtain ⟨hwait, rfl⟩ := stepWith_next_effect h
  rw [← reconcile_replace]
  exact stepWith_of_exec_next (exec_replace (s := s.fetch) _ s.halted (o ++ s.out) hwait (.inl rfl) hin)

/-- Settles O48: the input, with the byte at its position, is the same. -/
theorem outputIsNeverRead : Obligations.OutputIsNeverRead := by
  intro m s t o h
  rw [stepWith_replace o h (.inl rfl), ← stepWith_input h]

/-- Settles O49: nothing is put before the output. -/
theorem onlyTheNextInputByteMatters : Obligations.OnlyTheNextInputByteMatters := by
  intro m s t j h hin
  exact stepWith_replace [] h hin

/-! Many steps (R8, R117). -/

theorem stepsWith_succ_next {n : Nat} (h : stepsWith m (n + 1) s = .next t) :
    ∃ u, stepWith m s = .next u ∧ stepsWith m n u = .next t := by
  rw [stepsWith] at h
  cases hstep : stepWith m s with
  | next u => exact ⟨u, rfl, by rwa [hstep] at h⟩
  | fault r => rw [hstep] at h; cases h
  | refused r => rw [hstep] at h; cases h

/-- What every step keeps, any number of steps keeps. -/
theorem stepsWith_keeps {P : State → Prop} (hstep : ∀ s t, P s → stepWith m s = .next t → P t) {n : Nat}
    (hs : P s) (h : stepsWith m n s = .next t) : P t := by
  induction n generalizing s with
  | zero =>
    obtain rfl : s = t := Host.Outcome.next.inj h
    exact hs
  | succ n ih =>
    obtain ⟨u, hu, hrest⟩ := stepsWith_succ_next h
    exact ih (hstep s u hs hu) hrest

theorem stepWith_halted (h : stepWith m s = .next t) :
    t.halted = ((decodeWith m (s.memRead s.pc)).halts s.fetch || s.halted) := by
  obtain ⟨-, rfl⟩ := stepWith_next_effect h
  exact reconcile_halted _

/-- Settles O55: a step keeps a set `halted`. -/
theorem haltedStaysSet : Obligations.HaltedStaysSet := by
  intro m n s t hs h
  refine stepsWith_keeps (P := fun s => s.halted = true) (fun s t hs ht => ?_) hs h
  rw [stepWith_halted ht, hs, Bool.or_true]

theorem stepWith_inpos (h : stepWith m s = .next t) :
    t.inpos = if (decodeWith m (s.memRead s.pc)).readsConsole s.fetch then s.inpos + 1 else s.inpos := by
  obtain ⟨-, rfl⟩ := stepWith_next_effect h
  exact reconcile_inpos _

/-- Either a step consumed the byte at the position or it read none. -/
theorem stepWith_consumes_or_not (h : stepWith m s = .next t) :
    t.inpos = s.inpos + 1 ∨
      (t.inpos = s.inpos ∧ (decodeWith m (s.memRead s.pc)).readsConsole s.fetch = false) := by
  rw [stepWith_inpos h]
  cases (decodeWith m (s.memRead s.pc)).readsConsole s.fetch <;> simp

/-- Settles O58: by induction on the steps; the first one's byte, if it consumed one, is among those that agree. -/
theorem stepsDependOnTheConsumedBytes : Obligations.StepsDependOnTheConsumedBytes := by
  intro m n s t j h
  induction n generalizing s with
  | zero =>
    obtain rfl : s = t := Host.Outcome.next.inj h
    exact ⟨le_rfl, le_rfl, fun _ => rfl⟩
  | succ n ih =>
    obtain ⟨u, hu, hrest⟩ := stepsWith_succ_next h
    obtain ⟨hle, hbound, hsame⟩ := ih u hrest
    have hfirst := stepWith_consumes_or_not hu
    refine ⟨by omega, by omega, fun hagree => ?_⟩
    have hbyte : j.byteAt s.inpos = s.input.byteAt s.inpos ∨
        (decodeWith m (s.memRead s.pc)).readsConsole s.fetch = false :=
      hfirst.imp (fun hone => hagree s.inpos le_rfl (by omega)) And.right
    rw [stepsWith_succ_of_next n (onlyTheNextInputByteMatters m s u j hu hbyte)]
    refine hsame fun p hp hpt => ?_
    rw [stepWith_input hu]
    exact hagree p (by omega) hpt

end Machine
end Sys2Proof

/-! PROOFS, family 20_memory: the effective addresses (R54), the two memory primitives (R50), what a step that stores leaves
in each cell (R58, R65), and memory gone through the listed accesses (R55, R62). -/

namespace Sys2Proof.Machine

variable {i : Instr} {s t : State} {m : OpcodeMap}

/-! Effective addresses (R13, R54). -/

/-- A word plus an offset is their sum as integers, modulo 65536, whatever the offset's width. -/
theorem toNat_add_sext {n : Nat} (w : Word) (f : BitVec n) :
    ((w + sext f).toNat : Int) = ((w.toNat : Int) + f.toInt) % 65536 := by
  have hsext : (sext f).toNat = (f.toInt % 65536).toNat := BitVec.toNat_ofInt f.toInt
  rw [BitVec.toNat_add, hsext]
  omega

/-- Settles O3: both offsets by `toNat_add_sext`, the vector by zero extension; the two reads are the definitions. -/
theorem effectiveAddressesWrap : Obligations.EffectiveAddressesWrap := by
  intro s b f9 f6 v
  exact ⟨toNat_add_sext _ f9, toNat_add_sext _ f6, rfl, toNat_zext v (by decide), rfl⟩

/-! The write primitive and the memory frame of an instruction. -/

/-- Settles O4: what each cell reads after a write is `memRead_memWrite`; no other field is written. -/
theorem writeChangesOneCell : Obligations.WriteChangesOneCell := by
  intro s a v
  refine ⟨?_, fun b hb => ?_, fun r => readReg_memWrite s a v r, ⟨rfl, rfl, rfl⟩, rfl, rfl, rfl, rfl⟩
  · rw [memRead_memWrite, if_pos rfl]
  · rw [memRead_memWrite, if_neg hb]

/-- Settles O35: the effect writes the cell of the table of stores, and no other. -/
theorem memoryChangesOnlyAtTheStore : Obligations.MemoryChangesOnlyAtTheStore := by
  intro i s t h
  obtain ⟨-, rfl⟩ := exec_next_iff.mp h
  refine ⟨fun hstore => effect_memRead_of_no_store hstore, fun a v hstore => ⟨?_, fun b hb => ?_⟩⟩
  · rw [effect_memRead_of_store hstore, if_pos rfl]
  · rw [effect_memRead_of_store hstore, if_neg hb]

/-! Instructions that store: they do not read the console, fall through, and halt only as an STI to MCR. -/

section Store

variable {a v : Word} (h : i.store s = some (a, v))
include h

theorem readsConsole_of_store : i.readsConsole s = false := by
  cases i
  case ldi => cases h
  all_goals rfl

theorem awaitsInput_of_store : i.awaitsInput s = false := by
  rw [Instr.awaitsInput, readsConsole_of_store h, Bool.false_and]

theorem pcAfter_of_store : i.pcAfter s = s.pc := by
  cases i
  case br | jmp | jsr | jsrr | trap => cases h
  all_goals rfl

theorem halts_iff_of_store : i.halts s = true ↔ a = mcrAddr ∧ ∃ sr f, i = .sti sr f := by
  cases i
  case sti sr offset9 =>
    obtain ⟨rfl, -⟩ : s.indirect offset9 = a ∧ s.readReg sr = v := by simpa [Instr.store] using h
    simp [Instr.halts]
  all_goals simp [Instr.halts]

end Store

/-! Steps that store. -/

/-- The reconciliation writes the three device cells only. -/
theorem reconcile_memRead_of_ne {a : Word} (hkbsr : a ≠ kbsrAddr) (hdsr : a ≠ dsrAddr) (hddr : a ≠ ddrAddr)
    (s : State) : s.reconcile.memRead a = s.memRead a := by
  rw [reconcile_memRead, if_neg hdsr, if_neg hkbsr, if_neg hddr]

theorem stepWith_ir (h : stepWith m s = .next t) : t.ir = s.memRead s.pc := by
  obtain ⟨-, rfl⟩ := stepWith_next_effect h
  exact reconcile_ir _

theorem stepWith_pc (h : stepWith m s = .next t) : t.pc = (decodeWith m (s.memRead s.pc)).pcAfter s.fetch := by
  obtain ⟨-, rfl⟩ := stepWith_next_effect h
  exact reconcile_pc _

section StepStore

variable {a v : Word} (hstore : (decodeWith m (s.memRead s.pc)).store s.fetch = some (a, v))
include hstore

theorem stepWith_of_store : ∃ t, stepWith m s = .next t :=
  ⟨_, stepWith_of_exec_next (exec_next_iff.mpr ⟨awaitsInput_of_store hstore, rfl⟩)⟩

/-- A step keeps what it stored, but in the three cells the reconciliation writes. -/
theorem stepWith_memRead_of_store (h : stepWith m s = .next t) (hkbsr : a ≠ kbsrAddr) (hdsr : a ≠ dsrAddr)
    (hddr : a ≠ ddrAddr) : t.memRead a = v := by
  obtain ⟨-, rfl⟩ := stepWith_next_effect h
  rw [reconcile_memRead_of_ne hkbsr hdsr hddr, effect_memRead_of_store hstore, if_pos rfl]

theorem stepWith_inpos_of_store (h : stepWith m s = .next t) : t.inpos = s.inpos := by
  rw [stepWith_inpos h, readsConsole_of_store hstore]
  rfl

theorem stepWith_pc_of_store (h : stepWith m s = .next t) : t.pc = s.pc + 1 := by
  rw [stepWith_pc h, pcAfter_of_store hstore, fetch_pc]

end StepStore

/-- Settles O43: a store does not wait; the reconciled cells are settled, every other cell keeps what was stored. -/
theorem storesToDeviceCells : Obligations.StoresToDeviceCells := by
  intro m s a v hstore
  obtain ⟨t, ht⟩ := stepWith_of_store hstore
  obtain ⟨hkbsr, hdsr, hddr⟩ := deviceCellsAfterEveryStep m s t ht
  obtain ⟨hout, -⟩ := outputGrowsByTheDrainedValue m s t ht
  have hkept : a ≠ kbsrAddr → a ≠ dsrAddr → a ≠ ddrAddr → t.memRead a = v :=
    stepWith_memRead_of_store hstore ht
  refine ⟨t, ht, ?_, ?_, ?_, ?_, hkept, ?_⟩
  · rintro rfl
    exact ⟨hout v hstore, hddr⟩
  · rintro (rfl | rfl)
    · exact hkbsr
    · exact hdsr
  · rintro rfl
    exact hkept (by decide) (by decide) (by decide)
  · rintro rfl
    exact ⟨hkept (by decide) (by decide) (by decide), stepWith_inpos_of_store hstore ht⟩
  · rw [stepWith_halted ht, Bool.or_eq_true, halts_iff_of_store hstore, or_comm]
    rfl

/-- Settles O46: the first step leaves the stored word at its own pc, and the second fetches there. -/
theorem nextFetchSeesTheStore : Obligations.NextFetchSeesTheStore := by
  intro m s t u v hstore hkbsr hdsr hddr ht hu
  have hword : t.memRead t.pc = v := by
    rw [stepWith_pc_of_store hstore ht]
    exact stepWith_memRead_of_store hstore ht hkbsr hdsr hddr
  rw [← hword]
  exact ⟨stepWith_ir hu, stepWith_pc hu⟩

/-! Memory gone through a list of accesses (R55, R62). -/

/-- Going through two lists of accesses is going through one and then through the other. -/
theorem replay_append (mem : Memory) (l l' : List Access) :
    replay mem (l ++ l') = (replay mem l).bind (replay · l') := by
  induction l generalizing mem with
  | nil => rfl
  | cons c l ih =>
    cases c with
    | read a v =>
      by_cases hread : mem.read a.toNat = v
      · simpa only [List.cons_append, replay, if_pos hread] using ih mem
      · simp only [List.cons_append, replay, if_neg hread, Option.bind_none]
    | write a v => exact ih (mem.write a.toNat v)

/-- The read a state gets is consistent with its memory and changes nothing (R56). -/
@[simp] theorem replay_readAccess (s : State) (a : Word) (l : List Access) :
    replay s.mem (s.readAccess a :: l) = replay s.mem l := if_pos rfl

/-- An instruction's own accesses give the memory of its effect. -/
theorem replay_instrAccesses (i : Instr) (s : State) :
    replay s.mem (instrAccesses i s) = some (i.effect s).mem := by
  cases i
  case ld | ldr | trap | sti => exact replay_readAccess s _ _
  case ldi dr offset9 =>
    by_cases hkbdr : s.indirect offset9 = kbdrAddr
    · rw [instrAccesses, if_pos hkbdr, replay_readAccess]
      rfl
    · rw [instrAccesses, if_neg hkbdr, replay_readAccess, replay_readAccess]
      rfl
  all_goals rfl

theorem length_instrAccesses (i : Instr) (s : State) : (instrAccesses i s).length ≤ 2 := by
  cases i
  case ldi dr offset9 => by_cases hkbdr : s.indirect offset9 = kbdrAddr <;> simp [instrAccesses, hkbdr]
  all_goals simp [instrAccesses]

theorem replay_reconcileAccesses (s : State) :
    replay s.mem (reconcileAccesses s) = some s.reconcile.mem := by
  rw [reconcileAccesses, replay_readAccess, State.reconcile, State.drain]
  by_cases hddr : s.memRead ddrAddr = 0
  · rw [if_pos hddr, if_pos hddr]
    rfl
  · rw [if_neg hddr, if_neg hddr]
    rfl

/-- The reconciliation reads DDR and writes two cells, or three when it drains DDR. -/
theorem length_reconcileAccesses (s : State) :
    (reconcileAccesses s).length = if s.memRead ddrAddr = 0 then 3 else 4 := by
  by_cases hddr : s.memRead ddrAddr = 0
  · rw [reconcileAccesses, if_pos hddr, if_pos hddr]
    rfl
  · rw [reconcileAccesses, if_neg hddr, if_neg hddr]
    rfl

/-- A step that completes has the accesses of its fetch, of its instruction and of its reconciliation, in that order. -/
theorem stepAccesses_of_next (h : stepWith m s = .next t) :
    stepAccesses m s = some (s.readAccess s.pc ::
      (instrAccesses (decodeWith m (s.memRead s.pc)) s.fetch ++
        reconcileAccesses ((decodeWith m (s.memRead s.pc)).effect s.fetch))) := by
  obtain ⟨hwait, -⟩ := stepWith_next_effect h
  have hexec := exec_next_iff.mpr ⟨hwait, rfl⟩
  rw [stepAccesses, fetch_ir, hexec]

/-- Settles O50: the fetch reads, the instruction's accesses lead to the memory of its effect, and the reconciliation's
from there to the memory after the step. -/
theorem memoryFollowsTheAccessOrder : Obligations.MemoryFollowsTheAccessOrder := by
  intro m s t h
  refine ⟨_, stepAccesses_of_next h, ?_, ?_⟩
  · obtain ⟨-, rfl⟩ := stepWith_next_effect h
    have hinstr := replay_instrAccesses (decodeWith m (s.memRead s.pc)) s.fetch
    rw [replay_readAccess, replay_append, ← fetch_mem, hinstr, Option.bind_some, replay_reconcileAccesses]
  · have hinstr := length_instrAccesses (decodeWith m (s.memRead s.pc)) s.fetch
    have hrec := length_reconcileAccesses ((decodeWith m (s.memRead s.pc)).effect s.fetch)
    rw [List.length_cons, List.length_append, hrec]
    split <;> omega

end Sys2Proof.Machine

/-! PROOFS, family 30_encoding: the fields of R81 at their places, the formats of R82 as the fields each instruction names,
and decoding and encoding as inverses up to the ignored bits of R88. -/

namespace Sys2Proof

variable {m : OpcodeMap} {v w : Word}

/-! Fields of an encoded word (R81, R82): each placed field is read back at its own place and reads zero elsewhere. -/

/-- A field is read back from where it was placed. -/
@[simp] theorem extractLsb'_place_same {n lo : Nat} (f : BitVec n) (h : lo + n ≤ 16) :
    (place lo f).extractLsb' lo n = f := by
  refine extractLsb'_eq_of_bits fun k hk => ?_
  have h16 : lo + k < 16 := by omega
  simp [h16]

/-- Reading beside the place of a field gives zero. -/
@[simp] theorem extractLsb'_place_disjoint {n n' lo lo' : Nat} (f : BitVec n') (h : lo + n ≤ lo' ∨ lo' + n' ≤ lo) :
    (place lo' f).extractLsb' lo n = 0#n := by
  refine extractLsb'_eq_of_bits fun k hk => ?_
  rw [getLsbD_place, BitVec.getLsbD_zero]
  rcases h with h | h
  · have hlo : ¬ lo' ≤ lo + k := by omega
    simp [hlo]
  · simp [BitVec.getLsbD_of_ge f (lo + k - lo') (by omega)]

/-- The operation an instruction is a form of; the unused patterns are of none. -/
def Instr.operation : Instr → Option Operation
  | .addReg _ _ _ | .addImm _ _ _ => some .add
  | .andReg _ _ _ | .andImm _ _ _ => some .and
  | .not _ _ => some .not
  | .lea _ _ => some .lea
  | .ld _ _ => some .ld
  | .ldr _ _ _ => some .ldr
  | .ldi _ _ => some .ldi
  | .st _ _ => some .st
  | .str _ _ _ => some .str
  | .sti _ _ => some .sti
  | .br _ _ _ _ => some .br
  | .jmp _ => some .jmp
  | .jsr _ | .jsrr _ => some .jsr
  | .trap _ => some .trap
  | .unused8 | .unused13 => none

/-- The opcode value of an instruction under a map. -/
def Instr.opcode (m : OpcodeMap) (i : Instr) : BitVec 4 :=
  match i.operation with
  | some op => m.code op
  | none => if i = .unused8 then m.unusedLow else m.unusedHigh

/-- The encoder puts an instruction's opcode value into the opcode field. -/
theorem opcodeField_encodeWith (m : OpcodeMap) (i : Instr) : opcodeField (encodeWith m i) = i.opcode m := by
  cases i <;>
    simp [opcodeField, encodeWith, placeBit, BitVec.extractLsb'_or, Instr.opcode, Instr.operation, OpcodeMap.code]

/-- An injective map's inverse takes an instruction's opcode value back to its operation. -/
theorem operationOf_opcode (hm : m.wf) (i : Instr) : m.operationOf (i.opcode m) = i.operation := by
  obtain ⟨hlow, hhigh, -⟩ := m.unused_low_high
  rw [Instr.opcode]
  cases i.operation with
  | some op => exact OpcodeMap.operationOf_code hm op
  | none => by_cases h : i = .unused8 <;> simp [h, hlow, hhigh]

/-- Under an injective map decoding undoes encoding: the opcode selects the operation, and each field stands at its place. -/
theorem decodeWith_encodeWith (hm : m.wf) (i : Instr) : decodeWith m (encodeWith m i) = i := by
  obtain ⟨-, -, hne⟩ := m.unused_low_high
  rw [decodeWith, opcodeField_encodeWith, operationOf_opcode hm i]
  cases i <;>
    simp [Instr.operation, Instr.opcode, hne, encodeWith, drField, sr1Field, sr2Field, immFlag, imm5Field, offset6Field,
      offset9Field, offset11Field, nFlag, zFlag, pFlag, jsrFlag, trapField, placeBit,
      BitVec.extractLsb'_or, BitVec.getLsbD_of_ge]

/-- Settles O6: the map's inverse finds the operation, since its codes are all different, and the places do not overlap. -/
theorem decodeOfEncode : Obligations.DecodeOfEncode := by
  intro m i hm _
  exact decodeWith_encodeWith hm i

/-! Words that agree on some of their bits, and the fields that say so (R81). -/

/-- Two words have the same bits wherever a mask has ones. -/
def AgreeOn (mask v w : Word) : Prop := ∀ k, mask.getLsbD k = true → v.getLsbD k = w.getLsbD k

theorem agreeOn_or {a b : Word} : AgreeOn (a ||| b) v w ↔ AgreeOn a v w ∧ AgreeOn b v w := by
  simp only [AgreeOn, BitVec.getLsbD_or, Bool.or_eq_true, or_imp, forall_and]

theorem agreeOn_iff_and_eq {mask : Word} : AgreeOn mask v w ↔ v &&& mask = w &&& mask := by
  rw [BitVec.eq_of_getLsbD_eq_iff]
  refine ⟨fun h k _ => ?_, fun h k hk => ?_⟩
  · cases hk : mask.getLsbD k
    · simp [hk]
    · simp [h k hk]
  · simpa [hk] using h k (BitVec.lt_of_getLsbD hk)

/-- The opcode table's "same but for the ignored bits" is agreement on the bits that are not ignored. -/
theorem sameButIgnored_iff_agreeOn (r : Row) : r.sameButIgnored v w ↔ AgreeOn (~~~r.ignored) v w := by
  have hxor : (v &&& ~~~r.ignored) ^^^ (w &&& ~~~r.ignored) = (v ^^^ w) &&& ~~~r.ignored := by
    ext k hk
    simp [Bool.and_xor_distrib_right]
  rw [agreeOn_iff_and_eq, ← BitVec.xor_eq_zero_iff, hxor]
  rfl

/-- Two words have the same field exactly when they agree on the bits of its place. -/
theorem extractLsb'_eq_iff_agreeOn (lo n : Nat) (h : lo + n ≤ 16) :
    v.extractLsb' lo n = w.extractLsb' lo n ↔ AgreeOn (place lo (BitVec.allOnes n)) v w := by
  rw [BitVec.eq_of_getLsbD_eq_iff]
  refine ⟨fun hf k hk => ?_, fun ha k hk => ?_⟩
  · simp only [getLsbD_place, BitVec.getLsbD_allOnes, Bool.and_eq_true, decide_eq_true_eq] at hk
    obtain ⟨⟨-, hlo⟩, hn⟩ := hk
    simpa [hn, Nat.add_sub_cancel' hlo] using hf (k - lo) hn
  · have h16 : lo + k < 16 := by omega
    simpa [hk] using ha (lo + k) (by simp [h16, hk])

/-- Two words have the same bit exactly when they agree on its place. -/
theorem getLsbD_eq_iff_agreeOn (k : Nat) (h : k < 16) :
    v.getLsbD k = w.getLsbD k ↔ AgreeOn (BitVec.twoPow 16 k) v w := by
  simp [AgreeOn, BitVec.getLsbD_twoPow, h]

theorem Reg.ofIndex_inj {i j : BitVec 3} : Reg.ofIndex i = Reg.ofIndex j ↔ i = j :=
  (Function.LeftInverse.injective Reg.index_ofIndex).eq_iff

/-- Two words have the same register field exactly when they agree on the bits of its place. -/
theorem regField_eq_iff_agreeOn (lo : Nat) (h : lo + 3 ≤ 16) :
    Reg.ofIndex (v.extractLsb' lo 3) = Reg.ofIndex (w.extractLsb' lo 3) ↔
      AgreeOn (place lo (BitVec.allOnes 3)) v w := by
  rw [Reg.ofIndex_inj, extractLsb'_eq_iff_agreeOn lo 3 h]

/-! The places of the fields of R81, as masks. -/

theorem opcodeField_eq_iff : opcodeField v = opcodeField w ↔ AgreeOn 0xF000 v w :=
  extractLsb'_eq_iff_agreeOn 12 4 (by decide)

theorem drField_eq_iff : drField v = drField w ↔ AgreeOn 0x0E00 v w := regField_eq_iff_agreeOn 9 (by decide)

theorem sr1Field_eq_iff : sr1Field v = sr1Field w ↔ AgreeOn 0x01C0 v w := regField_eq_iff_agreeOn 6 (by decide)

theorem sr2Field_eq_iff : sr2Field v = sr2Field w ↔ AgreeOn 0x0007 v w := regField_eq_iff_agreeOn 0 (by decide)

theorem imm5Field_eq_iff : imm5Field v = imm5Field w ↔ AgreeOn 0x001F v w :=
  extractLsb'_eq_iff_agreeOn 0 5 (by decide)

theorem offset6Field_eq_iff : offset6Field v = offset6Field w ↔ AgreeOn 0x003F v w :=
  extractLsb'_eq_iff_agreeOn 0 6 (by decide)

theorem offset9Field_eq_iff : offset9Field v = offset9Field w ↔ AgreeOn 0x01FF v w :=
  extractLsb'_eq_iff_agreeOn 0 9 (by decide)

theorem offset11Field_eq_iff : offset11Field v = offset11Field w ↔ AgreeOn 0x07FF v w :=
  extractLsb'_eq_iff_agreeOn 0 11 (by decide)

theorem trapField_eq_iff : trapField v = trapField w ↔ AgreeOn 0x00FF v w :=
  extractLsb'_eq_iff_agreeOn 0 8 (by decide)

theorem immFlag_eq_iff : immFlag v = immFlag w ↔ AgreeOn 0x0020 v w := getLsbD_eq_iff_agreeOn 5 (by decide)

theorem nFlag_eq_iff : nFlag v = nFlag w ↔ AgreeOn 0x0800 v w := getLsbD_eq_iff_agreeOn 11 (by decide)

theorem zFlag_eq_iff : zFlag v = zFlag w ↔ AgreeOn 0x0400 v w := getLsbD_eq_iff_agreeOn 10 (by decide)

theorem pFlag_eq_iff : pFlag v = pFlag w ↔ AgreeOn 0x0200 v w := getLsbD_eq_iff_agreeOn 9 (by decide)

theorem jsrFlag_eq_iff : jsrFlag v = jsrFlag w ↔ AgreeOn 0x0800 v w := getLsbD_eq_iff_agreeOn 11 (by decide)

/-! The selector bits and the operand fields of each instruction's format (R82, R85), and the opcode table's masks. -/

/-- Two words have the same selector bits for an instruction: the opcode, and the flag of an operation with two forms (R85). -/
def Instr.SameSelector (v w : Word) : Instr → Prop
  | .addReg _ _ _ | .addImm _ _ _ | .andReg _ _ _ | .andImm _ _ _ =>
    opcodeField v = opcodeField w ∧ immFlag v = immFlag w
  | .jsr _ | .jsrr _ => opcodeField v = opcodeField w ∧ jsrFlag v = jsrFlag w
  | _ => opcodeField v = opcodeField w

/-- Two words have the same operand fields for an instruction, those R82 names in its format. -/
def Instr.SameOperands (v w : Word) : Instr → Prop
  | .addReg _ _ _ | .andReg _ _ _ => drField v = drField w ∧ sr1Field v = sr1Field w ∧ sr2Field v = sr2Field w
  | .addImm _ _ _ | .andImm _ _ _ => drField v = drField w ∧ sr1Field v = sr1Field w ∧ imm5Field v = imm5Field w
  | .not _ _ => drField v = drField w ∧ sr1Field v = sr1Field w
  | .lea _ _ | .ld _ _ | .ldi _ _ | .st _ _ | .sti _ _ => drField v = drField w ∧ offset9Field v = offset9Field w
  | .ldr _ _ _ | .str _ _ _ =>
    drField v = drField w ∧ sr1Field v = sr1Field w ∧ offset6Field v = offset6Field w
  | .br _ _ _ _ =>
    nFlag v = nFlag w ∧ zFlag v = zFlag w ∧ pFlag v = pFlag w ∧ offset9Field v = offset9Field w
  | .jmp _ | .jsrr _ => sr1Field v = sr1Field w
  | .jsr _ => offset11Field v = offset11Field w
  | .trap _ => trapField v = trapField w
  | .unused8 | .unused13 => True

/-- A row's mask holds the selector bits. -/
theorem agreeOn_mask_iff (i : Instr) : AgreeOn i.row.mask v w ↔ i.SameSelector v w := by
  cases i <;> simp [Instr.SameSelector, opcodeField_eq_iff, immFlag_eq_iff, jsrFlag_eq_iff, ← agreeOn_or, Instr.row]

/-- The bits a row does not ignore are the selector bits and those of the operand fields. -/
theorem agreeOn_named_iff (i : Instr) :
    AgreeOn (~~~i.row.ignored) v w ↔ i.SameSelector v w ∧ i.SameOperands v w := by
  cases i <;>
    simp only [Instr.SameSelector, Instr.SameOperands, opcodeField_eq_iff, immFlag_eq_iff, jsrFlag_eq_iff,
      drField_eq_iff, sr1Field_eq_iff, sr2Field_eq_iff, imm5Field_eq_iff, offset6Field_eq_iff, offset9Field_eq_iff,
      offset11Field_eq_iff, nFlag_eq_iff, zFlag_eq_iff, pFlag_eq_iff, trapField_eq_iff, ← agreeOn_or, and_true] <;>
    exact iff_of_eq (congrArg (AgreeOn · v w) (by rw [Instr.row]; decide))

/-! What a word decodes to rests on its selector bits and operand fields, and on nothing else (R87, R88). -/

theorem Instr.SameSelector.opcodeField_eq {i : Instr} (h : i.SameSelector v w) : opcodeField v = opcodeField w := by
  cases i <;> simp_all [Instr.SameSelector]

/-- The selector bits decide the row. -/
theorem row_decodeWith_of_sameSelector (h : (decodeWith m v).SameSelector v w) :
    (decodeWith m w).row = (decodeWith m v).row := by
  rw [decodeWith, decodeWith, ← h.opcodeField_eq]
  rw [decodeWith] at h
  generalize m.operationOf (opcodeField v) = o at h ⊢
  rcases o with _ | op
  · rfl
  cases op with
  | add | and | jsr =>
    dsimp only at h ⊢
    split at h <;> simp_all [Instr.SameSelector, Instr.row]
  | _ => rfl

/-- The selector bits and the operand fields decide the instruction. -/
theorem decodeWith_eq_of_sameFields (hsel : (decodeWith m v).SameSelector v w)
    (hops : (decodeWith m v).SameOperands v w) : decodeWith m w = decodeWith m v := by
  have hop := hsel.opcodeField_eq
  rw [decodeWith, decodeWith, ← hop]
  rw [decodeWith] at hsel hops
  generalize m.operationOf (opcodeField v) = o at hsel hops ⊢
  rcases o with _ | op
  · rfl
  cases op with
  | add | and | jsr =>
    dsimp only at hsel hops ⊢
    split at hsel <;> simp_all [Instr.SameSelector, Instr.SameOperands]
  | _ => simp_all [Instr.SameOperands]

/-- The operation decoded is the one the map's inverse gives for the opcode field. -/
theorem operation_decodeWith (m : OpcodeMap) (w : Word) :
    (decodeWith m w).operation = m.operationOf (opcodeField w) := by
  rw [decodeWith]
  rcases m.operationOf (opcodeField w) with _ | op
  · dsimp only
    split <;> rfl
  cases op with
  | add | and | jsr =>
    dsimp only
    split <;> rfl
  | _ => rfl

/-- Under an injective map the opcode field of a word is the opcode of the instruction it decodes to: besides the fourteen
codes there are only the two values of the unused patterns. -/
theorem opcode_decodeWith (hm : m.wf) (w : Word) : (decodeWith m w).opcode m = opcodeField w := by
  rw [Instr.opcode, operation_decodeWith]
  cases h : m.operationOf (opcodeField w) with
  | some op => exact OpcodeMap.code_of_operationOf h
  | none =>
    obtain ⟨-, -, hne⟩ := m.unused_low_high
    rw [decodeWith, h]
    rcases OpcodeMap.unused_eq_low_or_high hm h with hcode | hcode <;> simp [hcode, hne]

/-- Under an injective map an instruction also shows every one of its fields. -/
theorem decodeWith_eq_iff_sameFields (hm : m.wf) :
    decodeWith m v = decodeWith m w ↔ (decodeWith m v).SameSelector v w ∧ (decodeWith m v).SameOperands v w := by
  refine ⟨fun h => ?_, fun ⟨hsel, hops⟩ => (decodeWith_eq_of_sameFields hsel hops).symm⟩
  have hop : opcodeField v = opcodeField w := by
    rw [← opcode_decodeWith hm v, h, opcode_decodeWith hm w]
  rw [decodeWith, decodeWith, ← hop] at h
  rw [decodeWith]
  generalize m.operationOf (opcodeField v) = o at h ⊢
  rcases o with _ | op
  · dsimp only
    split <;> exact ⟨hop, trivial⟩
  cases op with
  | add | and | jsr =>
    dsimp only at h ⊢
    split at h <;> split at h <;> simp_all [Instr.SameSelector, Instr.SameOperands]
  | _ => simp_all [Instr.SameSelector, Instr.SameOperands]

/-- Settles O8: the bits that are not ignored are those of the fields, and the fields decide what a word decodes to. -/
theorem ignoredBitsDoNotMatter : Obligations.IgnoredBitsDoNotMatter := by
  intro m v w h
  rw [sameButIgnored_iff_agreeOn, agreeOn_named_iff] at h
  exact decodeWith_eq_of_sameFields h.1 h.2

/-- The word encoded from a decoded one decodes to the same instruction, so it has the same fields. -/
theorem sameFields_encodeWith_decodeWith (hm : m.wf) (w : Word) :
    (decodeWith m w).SameSelector (encodeWith m (decodeWith m w)) w ∧
      (decodeWith m w).SameOperands (encodeWith m (decodeWith m w)) w := by
  have hdec := decodeWith_encodeWith hm (decodeWith m w)
  have hsame := (decodeWith_eq_iff_sameFields hm).mp hdec
  rwa [hdec] at hsame

/-- Settles O9: words that decode alike have the same fields, and so the same bits but for the ignored ones. -/
theorem encodeOfDecodeKeepsEveryNamedBit : Obligations.EncodeOfDecodeKeepsEveryNamedBit := by
  intro m w hm
  rw [sameButIgnored_iff_agreeOn, agreeOn_named_iff]
  exact sameFields_encodeWith_decodeWith hm w

/-! The opcode table under the default map (R86, R87). -/

theorem opcodeMap_wf : opcodeMap.wf := by decide

theorem decode_encode (i : Instr) : decode (encode i) = i := decodeWith_encodeWith opcodeMap_wf i

/-- A row has the words that agree under its mask with the one the encoder writes. -/
theorem holds_iff_sameSelector {i : Instr} : i.row.holds w ↔ i.SameSelector (encode i) w := by
  rw [← agreeOn_mask_iff, agreeOn_iff_and_eq, Laws.EncodesInItsRow.holds i]
  exact eq_comm

/-- Every word of an instruction's row decodes into that row. -/
theorem row_decode_of_holds {i : Instr} (h : i.row.holds w) : (decode w).row = i.row := by
  have hi : decodeWith opcodeMap (encode i) = i := decode_encode i
  have hsel : (decodeWith opcodeMap (encode i)).SameSelector (encode i) w := by rwa [hi, ← holds_iff_sameSelector]
  exact (row_decodeWith_of_sameSelector hsel).trans (congrArg Instr.row hi)

/-- The opcode, bit 5 and bit 11 are all the selector bits there are. -/
theorem sameSelector_of_flags (hop : opcodeField v = opcodeField w) (himm : immFlag v = immFlag w)
    (hjsr : jsrFlag v = jsrFlag w) (i : Instr) : i.SameSelector v w := by
  cases i <;> simp [Instr.SameSelector, hop, himm, hjsr]

/-- Settles O7: a word has the selector bits of the word encoded from what it decodes to, which is in that row; a row is the
row of what each of its words decodes to, and selector bits are all that decides it. -/
theorem everyWordHasOneRow : Obligations.EveryWordHasOneRow := by
  intro w
  refine ⟨?_, fun i hi => (row_decode_of_holds hi).symm, fun v hop himm hjsr => ?_⟩
  · exact holds_iff_sameSelector.mpr (sameFields_encodeWith_decodeWith opcodeMap_wf w).1
  · exact row_decodeWith_of_sameSelector (sameSelector_of_flags hop.symm himm.symm hjsr.symm _)

/-- Settles O10: nineteen closed words, evaluated. -/
theorem specWordsDecode : Obligations.SpecWordsDecode := by
  unfold Obligations.SpecWordsDecode
  decide

end Sys2Proof

/-! PROOFS, family 40_step_cycle: what a step answers (R110, R115), its frame (R118), steps from a halted state (R117) and the
driver's run (R116). -/

namespace Sys2Proof.Machine

variable {i : Instr} {s t u : State} {m : OpcodeMap}

/-! What an instruction and a step answer (R110, R115, R181). -/

theorem exec_of_not_awaitsInput (h : ¬ i.awaitsInput s = true) : exec i s = .next (i.effect s) := by
  rw [exec_eq, if_neg h]

theorem exec_of_awaitsInput (h : i.awaitsInput s = true) : exec i s = .fault .awaitingInput := by
  rw [exec_eq, if_pos h]

/-- A step leads to the reconciled effect of the fetched instruction, unless that waits for the console for ever. -/
theorem stepWith_eq (m : OpcodeMap) (s : State) :
    stepWith m s = if (decodeWith m (s.memRead s.pc)).awaitsInput s.fetch then .fault .awaitingInput
      else .next ((decodeWith m (s.memRead s.pc)).effect s.fetch).reconcile := by
  rw [stepWith, fetch_ir]
  by_cases hwait : (decodeWith m (s.memRead s.pc)).awaitsInput s.fetch = true
  · rw [exec_of_awaitsInput hwait, if_pos hwait, finish]
  · rw [exec_of_not_awaitsInput hwait, if_neg hwait, finish]

theorem stepWith_of_not_awaitsInput (h : ¬ (decodeWith m (s.memRead s.pc)).awaitsInput s.fetch = true) :
    stepWith m s = .next ((decodeWith m (s.memRead s.pc)).effect s.fetch).reconcile :=
  (stepWith_eq m s).trans (if_neg h)

/-- The wait is the only way a step stops. -/
theorem stepWith_fault_iff {r : Fault} :
    stepWith m s = .fault r ↔ (decodeWith m (s.memRead s.pc)).awaitsInput s.fetch = true := by
  cases r
  rw [stepWith_eq]
  by_cases hwait : (decodeWith m (s.memRead s.pc)).awaitsInput s.fetch = true <;> simp [hwait]

/-- Settles O30: an instruction that does not wait leads to its effect, and a step to that effect reconciled. -/
theorem onlyTheKeyboardWaits : Obligations.OnlyTheKeyboardWaits := by
  refine ⟨fun i s => ⟨fun hgoes => ?_, exec_of_awaitsInput⟩, fun m s => ⟨fun hgoes => ?_, stepWith_fault_iff.mpr⟩⟩
  · exact ⟨_, exec_of_not_awaitsInput hgoes⟩
  · exact ⟨_, stepWith_of_not_awaitsInput hgoes⟩

/-- Settles O37: the state the instruction runs in is the fetch's, and the step ends as the instruction does. -/
theorem stepRunsTheDecodedInstruction : Obligations.StepRunsTheDecodedInstruction := by
  rintro s i rfl
  have hstep : step s = finish (exec (decode (s.memRead s.pc)) s.fetch) := rfl
  refine ⟨fun t ht => ?_, fun r hr => ?_⟩
  · exact hstep.trans (congrArg finish ht)
  · exact hstep.trans (congrArg finish hr)

/-- Settles O38: an injective map decodes the encoder's word to the instruction it encodes. -/
theorem stepRunsTheEncodedInstruction : Obligations.StepRunsTheEncodedInstruction := by
  intro m s i hm _ hword
  obtain rfl : decodeWith m (s.memRead s.pc) = i := by rw [hword, decodeWith_encodeWith hm]
  refine ⟨fun hgoes => ?_, stepWith_fault_iff.mpr⟩
  exact ⟨_, exec_of_not_awaitsInput hgoes, stepWith_of_not_awaitsInput hgoes⟩

/-! The frame of a step (R118). -/

section Frame

variable (h : stepWith m s = .next t)
include h

theorem stepWith_readReg_of_ne {r : Reg} (hr : (decodeWith m (s.memRead s.pc)).writesReg ≠ some r) :
    t.readReg r = s.readReg r := by
  obtain ⟨-, rfl⟩ := stepWith_next_effect h
  rw [reconcile_readReg, effect_readReg_of_ne hr, readReg_fetch]

/-- A step leaves `cc`, or sets it to the sign of the register it writes. -/
theorem stepWith_cc :
    t.cc = s.cc ∨ ∃ dr, (decodeWith m (s.memRead s.pc)).writesReg = some dr ∧ SignOf (t.readReg dr) t.cc := by
  obtain ⟨-, rfl⟩ := stepWith_next_effect h
  simp only [reconcile_cc, reconcile_readReg]
  by_cases hsets : (decodeWith m (s.memRead s.pc)).setsCC = true
  · exact .inr (effect_signOf hsets s.fetch)
  · exact .inl (if_neg hsets)

/-- Beside the three cells the reconciliation writes, memory after a step is memory after its instruction. -/
theorem stepWith_memRead {a : Word} (hkbsr : a ≠ kbsrAddr) (hdsr : a ≠ dsrAddr) (hddr : a ≠ ddrAddr) :
    t.memRead a = ((decodeWith m (s.memRead s.pc)).effect s.fetch).memRead a := by
  obtain ⟨-, rfl⟩ := stepWith_next_effect h
  exact reconcile_memRead_of_ne hkbsr hdsr hddr _

/-- A step appends nothing to the output, or the one non-zero value the drain finds in DDR. -/
theorem stepWith_out : t.out = s.out ∨ ∃ v, v ≠ 0 ∧ t.out = s.out ++ [v] := by
  obtain ⟨-, rfl⟩ := stepWith_next_effect h
  rw [reconcile_out]
  by_cases hddr : ((decodeWith m (s.memRead s.pc)).effect s.fetch).memRead ddrAddr = 0
  · exact .inl (if_pos hddr)
  · exact .inr ⟨_, hddr, if_neg hddr⟩

end Frame

/-- Settles O44: clause by clause, from the laws of a step that completes. -/
theorem frameOfAStep : Obligations.FrameOfAStep := by
  rintro m s t i rfl h
  obtain ⟨hkbsr, hdsr, hddr⟩ := deviceCellsAfterEveryStep m s t h
  refine ⟨stepWith_ir h, stepWith_pc h, hkbsr, hdsr, hddr, fun r => stepWith_readReg_of_ne h, stepWith_cc h,
    fun hstore a hk hd hdd => ?_, fun d v hstore a hk hd hdd => ?_, ?_, stepWith_input h, stepWith_inpos h,
    stepWith_out h⟩
  · rw [stepWith_memRead h hk hd hdd, effect_memRead_of_no_store hstore, memRead_fetch]
  · rw [stepWith_memRead h hk hd hdd, effect_memRead_of_store hstore, memRead_fetch]
  · rw [stepWith_halted h, Bool.or_comm]

/-! Steps from a state with another `halted` (R30, R117). -/

theorem reconcile_replace_halted (s : State) (b : Bool) :
    { s with halted := b }.reconcile = { s.reconcile with halted := b } := by
  have hdrain : { s with halted := b }.drain = { s.drain with halted := b } := by
    by_cases hddr : s.memRead ddrAddr = 0
    · have hsame : s.drain = s := if_pos hddr
      rw [hsame]
      exact if_pos hddr
    · have hemits : s.drain = (s.consoleWrite (s.memRead ddrAddr)).memWrite ddrAddr 0 := if_neg hddr
      rw [hemits]
      exact if_neg hddr
  rw [State.reconcile, hdrain]
  rfl

/-- A step reads nothing of `halted`: it only keeps it when set. -/
theorem stepWith_replace_halted (b : Bool) (h : stepWith m s = .next t) :
    stepWith m { s with halted := b } =
      .next { t with halted := (decodeWith m (s.memRead s.pc)).halts s.fetch || b } := by
  obtain ⟨hwait, rfl⟩ := stepWith_next_effect h
  rw [← reconcile_replace_halted]
  exact stepWith_of_exec_next (exec_replace (s := s.fetch) _ b s.out hwait (.inl rfl) (.inl rfl))

/-- A step that waits does so whatever `halted` is. -/
theorem stepWith_fault_replace_halted {r : Fault} (b : Bool) (h : stepWith m s = .fault r) :
    stepWith m { s with halted := b } = .fault r := by
  rw [stepWith_fault_iff] at h ⊢
  exact (awaitsInput_replace (s := s.fetch) (c := s.cc) _ b s.out (.inl rfl)).trans h

/-- Settles O45: a step from the state with `halted` false, with `halted` replaced by true. -/
theorem stepIgnoresHalted : Obligations.StepIgnoresHalted := by
  intro m s
  refine ⟨fun t ht => ?_, fun r => stepWith_fault_replace_halted true⟩
  simpa only [Bool.or_true] using stepWith_replace_halted true ht

/-! The driver's run (R116). -/

theorem runWith_of_halted (n : Nat) (h : s.halted = true) : runWith m n s = .next s := by
  cases n with
  | zero => rfl
  | succ n => exact runWith_succ_of_halted n h

theorem runWith_succ_next {n : Nat} (hrun : ¬ s.halted = true) (h : runWith m (n + 1) s = .next t) :
    ∃ u, stepWith m s = .next u ∧ runWith m n u = .next t := by
  rw [runWith, if_neg hrun] at h
  cases hstep : stepWith m s with
  | next u => exact ⟨u, rfl, by rwa [hstep] at h⟩
  | fault r => rw [hstep] at h; cases h
  | refused r => rw [hstep] at h; cases h

/-- The first `k` steps complete, and the boundary before each of them is not halted. -/
def RunningBefore (m : OpcodeMap) (k : Nat) (s : State) : Prop :=
  ∀ j, j < k → ∃ u, stepsWith m j s = .next u ∧ u.halted = false

theorem runningBefore_zero (m : OpcodeMap) (s : State) : RunningBefore m 0 s :=
  fun _ hj => absurd hj (Nat.not_lt_zero _)

theorem RunningBefore.halted_eq_false {k : Nat} (h : RunningBefore m (k + 1) s) : s.halted = false := by
  obtain ⟨u, hu, hrun⟩ := h 0 (Nat.succ_pos k)
  obtain rfl : s = u := Host.Outcome.next.inj hu
  exact hrun

theorem runningBefore_succ_iff {k : Nat} (hstep : stepWith m s = .next u) :
    RunningBefore m (k + 1) s ↔ s.halted = false ∧ RunningBefore m k u := by
  refine ⟨fun h => ⟨h.halted_eq_false, fun j hj => ?_⟩, fun ⟨hrun, h⟩ j hj => ?_⟩
  · rw [← stepsWith_succ_of_next j hstep]
    exact h (j + 1) (Nat.succ_lt_succ hj)
  · cases j with
    | zero => exact ⟨s, rfl, hrun⟩
    | succ j =>
      rw [stepsWith_succ_of_next j hstep]
      exact h j (Nat.lt_of_succ_lt_succ hj)

/-- A run that ends in a state took steps up to it, none from a halted boundary, and used up its steps or ended halted. -/
theorem exists_stepsWith_of_runWith {n : Nat} (h : runWith m n s = .next t) :
    ∃ k, k ≤ n ∧ stepsWith m k s = .next t ∧ (k = n ∨ t.halted = true) ∧ RunningBefore m k s := by
  induction n generalizing s with
  | zero => exact ⟨0, le_rfl, h, .inl rfl, runningBefore_zero m s⟩
  | succ n ih =>
    by_cases hhalted : s.halted = true
    · obtain rfl : s = t := Host.Outcome.next.inj ((runWith_of_halted (n + 1) hhalted).symm.trans h)
      exact ⟨0, Nat.zero_le _, rfl, .inr hhalted, runningBefore_zero m s⟩
    · obtain ⟨u, hu, hrest⟩ := runWith_succ_next hhalted h
      obtain ⟨k, hk, hsteps, hend, hbefore⟩ := ih hrest
      refine ⟨k + 1, Nat.succ_le_succ hk, ?_, hend.imp_left (congrArg (· + 1)), ?_⟩
      · rwa [stepsWith_succ_of_next k hu]
      · exact (runningBefore_succ_iff hu).mpr ⟨eq_false_of_ne_true hhalted, hbefore⟩

/-- Steps from boundaries that are not halted are a run, when they are all its steps or end halted. -/
theorem runWith_of_stepsWith {n k : Nat} (hk : k ≤ n) (hsteps : stepsWith m k s = .next t)
    (hend : k = n ∨ t.halted = true) (hbefore : RunningBefore m k s) : runWith m n s = .next t := by
  induction k generalizing n s with
  | zero =>
    obtain rfl : s = t := Host.Outcome.next.inj hsteps
    obtain rfl | hhalted := hend
    · rfl
    · exact runWith_of_halted n hhalted
  | succ k ih =>
    obtain ⟨n, rfl⟩ := Nat.exists_eq_add_one_of_ne_zero (Nat.ne_zero_of_lt hk)
    obtain ⟨u, hu, hrest⟩ := stepsWith_succ_next hsteps
    obtain ⟨hrun, hbefore'⟩ := (runningBefore_succ_iff hu).mp hbefore
    rw [runWith_succ_of_next n (ne_true_of_eq_false hrun) hu]
    exact ih (Nat.le_of_succ_le_succ hk) hrest (hend.imp_left Nat.succ.inj) hbefore'

/-- Settles O54: by induction on the run's steps one way, on the steps requested the other way. -/
theorem runIsTheStepsUpToTheFirstHalt : Obligations.RunIsTheStepsUpToTheFirstHalt := by
  intro m n s t
  exact ⟨exists_stepsWith_of_runWith,
    fun ⟨_, hk, hsteps, hend, hbefore⟩ => runWith_of_stepsWith hk hsteps hend hbefore⟩

end Sys2Proof.Machine

/-! PROOFS, family 41_operate: ADD, AND and NOT (R120 to R122), each of which writes its result by `State.writeResult`. -/

namespace Sys2Proof.Machine

/-! What writing a result leaves (R27, R118). -/

theorem readReg_writeResult_same (s : State) (dr : Reg) (v : Word) :
    (s.writeResult dr v).readReg dr = v := by
  rw [readReg_writeResult, if_pos rfl]

/-- `cc` is the sign of the destination register; no other register and nothing beside the registers and `cc` changes. -/
theorem writeResult_sign_and_frame (s : State) (dr : Reg) (v : Word) :
    SignOf ((s.writeResult dr v).readReg dr) (s.writeResult dr v).cc ∧
      RegsSameBut dr s (s.writeResult dr v) ∧ RestSame s (s.writeResult dr v) := by
  refine ⟨?_, fun r hr => ?_, memRead_writeResult s dr v, ⟨rfl, rfl, rfl⟩, rfl, rfl, rfl⟩
  · rw [readReg_writeResult_same, writeResult_cc]
    exact signOf_ccOf v
  · rw [readReg_writeResult, if_neg hr]

/-! The extended immediate, bit by bit (R14, R84). -/

/-- Above a field's top bit a sign-extended word repeats that bit (R14). -/
theorem getLsbD_sext_min {n : Nat} (f : BitVec n) {k : Nat} (hk : k < 16) :
    (sext f).getLsbD k = f.getLsbD (min k (n - 1)) := by
  rw [getLsbD_sext f k hk]
  by_cases hin : k < n
  · rw [if_pos hin, min_eq_left (Nat.le_sub_one_of_lt hin)]
  · rw [if_neg hin, min_eq_right (by omega)]

/-! The three operations. -/

/-- Settles O11: words add modulo 65536, and an extended immediate adds its signed value. -/
theorem addWritesTheSum : Obligations.AddWritesTheSum := by
  intro s dr sr1 sr2 imm5
  refine ⟨⟨_, rfl, ?_, writeResult_sign_and_frame _ _ _⟩, ⟨_, rfl, ?_, writeResult_sign_and_frame _ _ _⟩⟩
  · rw [readReg_writeResult_same]
    exact BitVec.toNat_add _ _
  · rw [readReg_writeResult_same]
    exact toNat_add_sext _ imm5

/-- Settles O12: AND is bitwise, and bit `k` of the extended immediate is its bit `min k 4`. -/
theorem andConjoinsTheBits : Obligations.AndConjoinsTheBits := by
  intro s dr sr1 sr2 imm5
  refine ⟨⟨_, rfl, fun k _ => ?_, writeResult_sign_and_frame _ _ _⟩,
    ⟨_, rfl, fun k hk => ?_, writeResult_sign_and_frame _ _ _⟩⟩
  · rw [readReg_writeResult_same, BitVec.getLsbD_and]
  · rw [readReg_writeResult_same, BitVec.getLsbD_and, getLsbD_sext_min imm5 hk]

/-- Settles O13: the complement of a word is 65535 minus it. -/
theorem notComplements : Obligations.NotComplements := by
  intro s dr sr1
  refine ⟨_, rfl, ?_, writeResult_sign_and_frame _ _ _⟩
  rw [readReg_writeResult_same]
  exact BitVec.toNat_not

end Sys2Proof.Machine

/-! PROOFS, family 42_loads: LEA, LD, LDR and LDI (R130 to R133). Each writes its result by `State.writeResult`; a keyboard LDI
does so in the state whose input position has advanced. -/

namespace Sys2Proof.Machine

variable {s : State} {dr : Reg} {f : BitVec 9}

/-! Which word is an effective address (R54). -/

/-- The only word that is the sum of a word and an offset modulo 65536 is the effective address. -/
theorem eq_add_sext {n : Nat} {a w : Word} {offset : BitVec n}
    (h : (a.toNat : Int) = ((w.toNat : Int) + offset.toInt) % 65536) : a = w + sext offset := by
  have hsum := toNat_add_sext w offset
  exact BitVec.eq_of_toNat_eq (by omega)

/-! The three cases of LDI (R133, R181). -/

/-- A byte at the input position is what a console read answers (R181). -/
theorem consoleRead_of_byteAt {c : Byte} (hbyte : s.input.byteAt s.inpos = some c) :
    s.consoleRead = some (c, { s with inpos := s.inpos + 1 }) := by
  rw [State.consoleRead, hbyte]

theorem exec_ldi_of_ne (haddr : s.indirect f ≠ kbdrAddr) :
    exec (.ldi dr f) s = .next (s.writeResult dr (s.memRead (s.indirect f))) :=
  if_neg haddr

theorem exec_ldi_of_byteAt {c : Byte} (haddr : s.indirect f = kbdrAddr)
    (hbyte : s.input.byteAt s.inpos = some c) :
    exec (.ldi dr f) s = .next ({ s with inpos := s.inpos + 1 }.writeResult dr (zext c)) := by
  rw [exec, execLdi, if_pos haddr, consoleRead_of_byteAt hbyte]

theorem exec_ldi_of_exhausted (haddr : s.indirect f = kbdrAddr) (hnone : s.input.byteAt s.inpos = none) :
    exec (.ldi dr f) s = .fault .awaitingInput := by
  rw [exec, execLdi, if_pos haddr, consoleRead_none.mpr hnone]

/-! The four loads. -/

/-- Settles O14: the address is pc plus the extended offset. -/
theorem leaWritesTheAddress : Obligations.LeaWritesTheAddress := by
  intro s dr f
  refine ⟨_, rfl, ?_, writeResult_sign_and_frame _ _ _⟩
  rw [readReg_writeResult_same]
  exact toNat_add_sext _ f

/-- Settles O15: the address read is the one word that is pc plus the offset; a plain read touches no console. -/
theorem ldReadsThePcRelativeCell : Obligations.LdReadsThePcRelativeCell := by
  intro s dr f
  refine ⟨_, rfl, fun a ha => ?_, writeResult_sign_and_frame _ _ _⟩
  rw [readReg_writeResult_same, eq_add_sext ha, State.pcRel9]

/-- Settles O16: the address read is the one word that is the base, as it was before the write, plus the offset. -/
theorem ldrReadsTheBasePlusOffsetCell : Obligations.LdrReadsTheBasePlusOffsetCell := by
  intro s dr b f
  refine ⟨_, rfl, fun a ha => ?_, writeResult_sign_and_frame _ _ _⟩
  rw [readReg_writeResult_same, eq_add_sext ha, State.baseOffset]

/-- Settles O17: away from KBDR a result written in `s`; at KBDR with a byte left, one written in the state whose input
position has advanced; with none left the wait. -/
theorem ldiReadsTheCellOrTheConsole : Obligations.LdiReadsTheCellOrTheConsole := by
  intro s dr f
  refine ⟨fun haddr => ?_, fun c haddr hbyte => ?_, exec_ldi_of_exhausted⟩
  · exact ⟨_, exec_ldi_of_ne haddr, readReg_writeResult_same _ _ _, writeResult_sign_and_frame _ _ _⟩
  · obtain ⟨hsign, hregs, hmem, ⟨hinput, hinpos, hout⟩, hpc, hir, hhalted⟩ :=
      writeResult_sign_and_frame { s with inpos := s.inpos + 1 } dr (zext c)
    refine ⟨_, exec_ldi_of_byteAt haddr hbyte, ?_, hsign, hregs, hmem, hinpos, hinput, hout, hpc, hir, hhalted⟩
    rw [readReg_writeResult_same]
    exact toNat_zext c (by decide)

end Sys2Proof.Machine

/-! PROOFS, family 43_stores: ST, STR and STI (R140 to R143). All three are instructions with an entry in the table of stores
(`Instr.store`), and what such an instruction does is said once, of its effect; only `halted` is told apart by the
instruction. -/

namespace Sys2Proof.Machine

variable {i : Instr} {s : State} {a v : Word}

/-! Instructions that store complete and change the stored cell, and of the rest at most `halted`. -/

section StoreEffect

variable (h : i.store s = some (a, v))
include h

theorem writesReg_of_store : i.writesReg = none := by
  cases i
  case st | str | sti => rfl
  all_goals cases h

theorem setsCC_of_store : i.setsCC = false := by
  cases i
  case st | str | sti => rfl
  all_goals cases h

theorem exec_of_store : exec i s = .next (i.effect s) :=
  exec_next_iff.mpr ⟨awaitsInput_of_store h, rfl⟩

theorem effect_cell_of_store : (i.effect s).memRead a = v ∧ MemSameBut a s (i.effect s) :=
  (memoryChangesOnlyAtTheStore i s _ (exec_of_store h)).2 a v h

theorem effect_regsSame_of_store : RegsSame s (i.effect s) := by
  intro r
  exact effect_readReg_of_ne (by simp [writesReg_of_store h]) s

theorem effect_consoleSame_of_store : ConsoleSame s (i.effect s) := by
  refine ⟨rfl, ?_, rfl⟩
  simp [Instr.effect, readsConsole_of_store h]

theorem effect_cc_of_store : (i.effect s).cc = s.cc := by
  simp [Instr.effect, setsCC_of_store h]

theorem effect_pc_of_store : (i.effect s).pc = s.pc := pcAfter_of_store h

end StoreEffect

/-! The three stores. -/

theorem store_st (s : State) (sr : Reg) (f : BitVec 9) :
    (Instr.st sr f).store s = some (s.pcRel9 f, s.readReg sr) := rfl

theorem store_str (s : State) (sr b : Reg) (f : BitVec 6) :
    (Instr.str sr b f).store s = some (s.baseOffset b f, s.readReg sr) := rfl

theorem store_sti (s : State) (sr : Reg) (f : BitVec 9) :
    (Instr.sti sr f).store s = some (s.indirect f, s.readReg sr) := rfl

/-- STI sets `halted` when its effective address is MCR's, and otherwise keeps it (R142). -/
theorem effect_sti_halted (s : State) (sr : Reg) (f : BitVec 9) :
    ((Instr.sti sr f).effect s).halted = if s.indirect f = mcrAddr then true else s.halted := by
  by_cases hmcr : s.indirect f = mcrAddr <;> simp [Instr.effect, Instr.halts, hmcr]

/-- Settles O22: each of the three has its entry in the table of stores, and the rest holds of every instruction that has
one. -/
theorem storesWriteOneWholeCell : Obligations.StoresWriteOneWholeCell := by
  intro i s sr hi
  obtain ⟨a, hstore⟩ : ∃ a, i.store s = some (a, s.readReg sr) := by
    obtain ⟨f, rfl⟩ | ⟨b, f, rfl⟩ | ⟨f, rfl⟩ := hi
    · exact ⟨_, store_st s sr f⟩
    · exact ⟨_, store_str s sr b f⟩
    · exact ⟨_, store_sti s sr f⟩
  obtain ⟨hcell, hothers⟩ := effect_cell_of_store hstore
  exact ⟨a, _, hstore, exec_of_store hstore, hcell, hothers, effect_regsSame_of_store hstore,
    effect_cc_of_store hstore, effect_pc_of_store hstore⟩

/-- Settles O21: the store through the pointer, with `halted` by the two cases of its effective address. -/
theorem stiStoresThroughThePointer : Obligations.StiStoresThroughThePointer := by
  intro s sr f
  have hstore := store_sti s sr f
  refine ⟨_, exec_of_store hstore, ?_, fun hmcr => ?_, fun hmcr => ?_, effect_regsSame_of_store hstore,
    effect_consoleSame_of_store hstore, effect_pc_of_store hstore, rfl, effect_cc_of_store hstore⟩
  · rintro a rfl
    exact effect_cell_of_store hstore
  · exact (effect_sti_halted s sr f).trans (if_pos hmcr)
  · exact (effect_sti_halted s sr f).trans (if_neg hmcr)

/-- Settles O19: ST is no halting instruction, at MCR's address either. -/
theorem stStoresAtThePcRelativeCell : Obligations.StStoresAtThePcRelativeCell := by
  intro s sr f
  have hstore := store_st s sr f
  refine ⟨_, exec_of_store hstore, ?_, effect_regsSame_of_store hstore, effect_consoleSame_of_store hstore,
    effect_pc_of_store hstore, rfl, effect_cc_of_store hstore, rfl⟩
  rintro a rfl
  exact effect_cell_of_store hstore

/-- Settles O20: STR is no halting instruction, at MCR's address either. -/
theorem strStoresAtTheBasePlusOffsetCell : Obligations.StrStoresAtTheBasePlusOffsetCell := by
  intro s sr b f
  have hstore := store_str s sr b f
  refine ⟨_, exec_of_store hstore, ?_, effect_regsSame_of_store hstore, effect_consoleSame_of_store hstore,
    effect_pc_of_store hstore, rfl, effect_cc_of_store hstore, rfl⟩
  rintro a rfl
  exact effect_cell_of_store hstore

end Sys2Proof.Machine

/-! PROOFS, family 44_control: BR, JMP, JSR in both forms and TRAP (R150 to R153). Each completes with `State.setPc`, BR and JMP
from the state they start in, the other three from the linked one; what those two ends leave is said once. -/

namespace Sys2Proof.Machine

/-! What a jump leaves, without and with the link (R154). -/

theorem setPc_frame (s : State) (target : Word) :
    RegsSame s (s.setPc target) ∧ MemSame s (s.setPc target) ∧ ConsoleSame s (s.setPc target) ∧
      (s.setPc target).ir = s.ir ∧ (s.setPc target).cc = s.cc ∧ (s.setPc target).halted = s.halted :=
  ⟨readReg_setPc s target, memRead_setPc s target, ⟨rfl, rfl, rfl⟩, rfl, rfl, rfl⟩

theorem readReg_link_setPc_r7 (s : State) (target : Word) : (s.link.setPc target).readReg .r7 = s.pc := by
  rw [readReg_setPc, readReg_link, if_pos rfl]

theorem link_setPc_frame (s : State) (target : Word) :
    RegsSameBut .r7 s (s.link.setPc target) ∧ MemSame s (s.link.setPc target) ∧
      ConsoleSame s (s.link.setPc target) ∧ (s.link.setPc target).ir = s.ir ∧
      (s.link.setPc target).cc = s.cc ∧ (s.link.setPc target).halted = s.halted := by
  refine ⟨fun r hr => ?_, memRead_link s, ⟨rfl, rfl, rfl⟩, rfl, rfl, rfl⟩
  rw [readReg_setPc, readReg_link, if_neg hr]

/-! BR's condition, and three of the instructions in terms of their jump (R150, R152, R153, D4). -/

theorem CC.taken_iff {cc : CC} {n z p : Bool} :
    cc.taken n z p = true ↔
      (n = true ∧ cc = .negative) ∨ (z = true ∧ cc = .zero) ∨ (p = true ∧ cc = .positive) := by
  simp [CC.taken, or_assoc]

theorem exec_br (s : State) (n z p : Bool) (f : BitVec 9) :
    exec (.br n z p f) s = .next (s.setPc (if s.cc.taken n z p then s.pcRel9 f else s.pc)) :=
  execBr_eq n z p f s

theorem exec_jsrr (s : State) (b : Reg) :
    exec (.jsrr b) s = .next (s.link.setPc (if b = .r7 then s.pc else s.readReg b)) :=
  execJsrr_eq b s

theorem exec_trap (s : State) (v : BitVec 8) :
    exec (.trap v) s = .next (s.link.setPc (s.memRead (vectorCell v))) := rfl

/-! The control instructions. -/

/-- Settles O23: a jump to the PC-relative target when taken and to the pc itself when not. -/
theorem brTestsTheConditionCode : Obligations.BrTestsTheConditionCode := by
  intro s n z p f
  refine ⟨_, exec_br s n z p f, fun htaken => ?_, fun hnot => ?_, setPc_frame _ _⟩
  · rw [setPc_pc, if_pos (CC.taken_iff.mpr htaken)]
    exact toNat_add_sext s.pc f
  · exact if_neg (mt CC.taken_iff.mp hnot)

/-- Settles O25: any word is a target. -/
theorem jmpGoesToTheRegister : Obligations.JmpGoesToTheRegister := by
  intro s b
  exact ⟨_, rfl, setPc_pc s (s.readReg b), setPc_frame _ _⟩

/-- Settles O26: the link keeps the pc, so the offset is added to the pc saved; a base register other than 7 survives the
link, and base register 7 reads the pc saved. -/
theorem jsrLinksThenJumps : Obligations.JsrLinksThenJumps := by
  intro s f b
  refine ⟨⟨_, rfl, readReg_link_setPc_r7 _ _, toNat_add_sext s.pc f, link_setPc_frame _ _⟩,
    ⟨_, exec_jsrr s b, readReg_link_setPc_r7 _ _, ?_, ?_, link_setPc_frame _ _⟩⟩
  · exact fun hbase => if_neg hbase
  · exact fun hbase => if_pos hbase

/-- Settles O27: the vector's cell is the one word with the vector's value, and the link leaves it as it was. -/
theorem trapVectorsThroughTheTable : Obligations.TrapVectorsThroughTheTable := by
  intro s v
  refine ⟨_, exec_trap s v, readReg_link_setPc_r7 _ _, fun a ha => ?_, link_setPc_frame _ _⟩
  have hcell : a = vectorCell v := BitVec.eq_of_toNat_eq (ha.trans (toNat_zext v (by decide)).symm)
  rw [setPc_pc, hcell]

end Sys2Proof.Machine

/-! PROOFS, family 45_unused_opcodes: the two unused patterns (R160). A step of either is the fetch and the reconciliation. -/

namespace Sys2Proof.Machine

variable {i : Instr} {m : OpcodeMap} {s : State}

theorem exec_of_unused (h : i = .unused8 ∨ i = .unused13) (s : State) : exec i s = .next s := by
  obtain rfl | rfl := h
  · rfl
  · rfl

theorem stepWith_of_unused
    (h : decodeWith m (s.memRead s.pc) = .unused8 ∨ decodeWith m (s.memRead s.pc) = .unused13) :
    stepWith m s = .next s.fetch.reconcile :=
  stepWith_of_exec_next (exec_of_unused h s.fetch)

/-- Settles O29: the instruction changes nothing, so a step keeps what the fetch and the reconciliation both keep, and the
drain finds in DDR what the step began with. -/
theorem unusedPatternsDoNothing : Obligations.UnusedPatternsDoNothing := by
  refine ⟨fun s => ⟨exec_of_unused (.inl rfl) s, exec_of_unused (.inr rfl) s⟩, fun m s h => ?_⟩
  refine ⟨_, stepWith_of_unused h, reconcile_pc _, reconcile_ir _, reconcile_readReg _, reconcile_cc _,
    reconcile_halted _, reconcile_input _, reconcile_inpos _, reconcile_out _, fun a hkbsr hdsr hddr => ?_⟩
  exact reconcile_memRead_of_ne hkbsr hdsr hddr s.fetch

end Sys2Proof.Machine

/-! PROOFS, family 60_exceptions: the return through the link (R173), the console's wait (R181), the reconciliation (R184) and
the polls of its two status cells (R185). -/

namespace Sys2Proof.Machine

variable {i : Instr} {s : State}

/-! The return through the link (R154, R173). -/

/-- An instruction that writes `x[7]` and is none of the seven that set `cc` is JSR, JSRR or TRAP, and writes the pc there. -/
theorem value_of_link (hwrites : i.writesReg = some .r7) (hsets : i.setsCC = false) (s : State) :
    i.value s = s.pc := by
  cases i
  case jsr | jsrr | trap => rfl
  case st | str | sti | br | jmp | unused8 | unused13 => cases hwrites
  all_goals cases hsets

/-- Settles O28: the link the call wrote is the pc of its end, and JMP goes to the register and changes the pc alone. -/
theorem jumpThroughTheLinkReturns : Obligations.JumpThroughTheLinkReturns := by
  intro i s t u hwrites hsets hcall hlink
  obtain ⟨-, rfl⟩ := exec_next_iff.mp hcall
  obtain ⟨w, hw, hpc, hregs, hmem, hconsole, -, hcc, hhalted⟩ := jmpGoesToTheRegister u .r7
  refine ⟨w, hw, ?_, hregs, hmem, hconsole, hcc, hhalted⟩
  rw [hpc, hlink, effect_readReg_of_writes hwrites, value_of_link hwrites hsets]

/-! The wait for the console and its end (R181, R215). -/

/-- What waits is an LDI whose effective address is KBDR's, with no byte left. -/
theorem awaitsInput_iff :
    i.awaitsInput s = true ↔
      ∃ dr f, i = .ldi dr f ∧ s.indirect f = kbdrAddr ∧ s.input.byteAt s.inpos = none := by
  cases i
  case ldi dr f => simp [Instr.awaitsInput, Instr.readsConsole]
  all_goals simp [Instr.awaitsInput, Instr.readsConsole]

/-- A byte put at the end of an input that is used up stands at the position, and is the last. -/
theorem byteAt_append_exhausted {input : Input} {p : Nat} (hreach : input.reaches p = true)
    (hnone : input.byteAt p = none) (c : Byte) :
    (input.append [c]).byteAt p = some c ∧ (input.append [c]).byteAt (p + 1) = none := by
  obtain ⟨bytes, rfl, hlen⟩ := byteAt_none.mp hnone
  obtain rfl : p = bytes.length := le_antisymm (by simpa using hreach) hlen
  simp

/-- Settles O47: the step that waits is a keyboard LDI at the end of the input, where the offered byte then stands alone. -/
theorem waitingStepResumesWithInput : Obligations.WaitingStepResumesWithInput := by
  rintro m s c ⟨-, hreach⟩ hwait
  obtain ⟨dr, f, hinstr, haddr, hnone⟩ := awaitsInput_iff.mp (stepWith_fault_iff.mp hwait)
  obtain ⟨hbyte, hend⟩ := byteAt_append_exhausted hreach hnone c
  have hexec : exec (decodeWith m (s.memRead s.pc)) (s.offerInput [c]).fetch =
      .next ({ (s.offerInput [c]).fetch with inpos := s.inpos + 1 }.writeResult dr (zext c)) := by
    rw [hinstr]
    exact exec_ldi_of_byteAt haddr hbyte
  refine ⟨_, dr, stepWith_of_exec_next hexec, by rw [hinstr]; rfl, ?_, reconcile_inpos _, ?_⟩
  · rw [reconcile_readReg, readReg_writeResult_same]
    exact toNat_zext c (by decide)
  · rw [State.hasInput, reconcile_input, reconcile_inpos]
    exact ne_true_of_eq_false (congrArg Option.isSome hend)

/-! The polls of the status cells (R33, R185). -/

theorem memRead_of_devicesSettled {a : Word} (h : s.devicesSettled) (ha : a = kbsrAddr ∨ a = dsrAddr) :
    s.memRead a = readyValue := by
  obtain ⟨hkbsr, hdsr, -⟩ := h
  obtain rfl | rfl := ha
  · exact hkbsr
  · exact hdsr

/-- The ready value as a result is read back, and is negative (R27). -/
theorem writeResult_ready (s : State) (dr : Reg) :
    (s.writeResult dr readyValue).readReg dr = readyValue ∧ (s.writeResult dr readyValue).cc = .negative :=
  ⟨readReg_writeResult_same s dr readyValue, by rw [writeResult_cc]; decide⟩

/-- Settles O18: each of the three loads writes what the status cell holds as its result, LDI because neither cell is
KBDR's. -/
theorem pollingSeesReady : Obligations.PollingSeesReady := by
  intro s dr b f9 f6 a hsettled ha
  have hread : s.memRead a = readyValue := memRead_of_devicesSettled hsettled ha
  refine ⟨fun haddr => ⟨s.writeResult dr readyValue, ?_, writeResult_ready s dr⟩,
    fun haddr => ⟨s.writeResult dr readyValue, ?_, writeResult_ready s dr⟩,
    fun haddr => ⟨s.writeResult dr readyValue, ?_, writeResult_ready s dr⟩⟩
  · rw [exec, execLd, haddr, hread]
  · rw [exec, execLdr, haddr, hread]
  · have hkbdr : s.indirect f9 ≠ kbdrAddr := by
      rw [haddr]
      obtain rfl | rfl := ha <;> decide
    rw [exec_ldi_of_ne hkbdr, haddr, hread]

/-! The reconciliation (R184). -/

/-- Settles O39: clause by clause, from the laws of the reconciliation. -/
theorem reconcileDrainsAndForcesReady : Obligations.ReconcileDrainsAndForcesReady := by
  intro s
  obtain ⟨hkbsr, hdsr, hddr⟩ := reconcile_devicesSettled s
  exact ⟨reconcile_out s, hddr, hkbsr, hdsr, fun a hk hd hdd => reconcile_memRead_of_ne hk hd hdd s,
    reconcile_readReg s, reconcile_pc s, reconcile_ir s, reconcile_cc s, reconcile_halted s, reconcile_input s,
    reconcile_inpos s⟩

end Sys2Proof.Machine
